-- ==== Sys2Proof/Word.lean ====
section
/-! DEFINITION. The word types of the engine: `REG_W` = 64 bits and `OFFSET_W` = 17 bits (00_scope.md R9),
and the plainest readings of a 64-bit pattern (00_scope.md R12). -/

namespace Sys2Proof

/-- A register or bus value, `REG_W` = 64 bits (00_scope.md R9). -/
abbrev Word := BitVec 64

/-- A 32-bit lane of the subkey derivation (42_subkey_schedule.md R96) or a SHA-256 word. -/
abbrev Half := BitVec 32

/-- One byte of text or of the key window. -/
abbrev Byte := BitVec 8

/-- A byte offset into the engine's address window, `OFFSET_W` = 17 bits (00_scope.md R9, 20_memory.md R41). -/
abbrev Offset := BitVec 17

/-- `uint(x)` of 00_scope.md R12. -/
abbrev uint (x : Word) : Nat := x.toNat

/-- `sint(x)` of 00_scope.md R12: the two's complement reading, in [-2^63, 2^63-1]. -/
abbrev sint (x : Word) : Int := x.toInt

/-- `bits64(z)` of 00_scope.md R12: `z mod 2^64` as a pattern. -/
abbrev bits64 (z : Int) : Word := BitVec.ofInt 64 z

end Sys2Proof
end

