-- ==== Sys2Proof/Config.lean ====
section
/-! DEFINITION. What the platform fixes and the spec leaves OPEN (00_scope.md R9, 92_eei_decisions.md): constants with no
body, so that nothing proved can depend on their values. `CMD_LATENCY` has no constant: the model has no time, and a
completion may stand at any place of the event list (70_reset_and_hazards.md R132). -/

namespace Sys2Proof.Config

/-- FREE VALUE. The value the time source answers draw number `n` with when the state lists none
(60_exceptions.md R116: "The value of a draw is under no law"). Log entry 4. -/
opaque nowUs : Nat → Word

/-- FREE VALUE. Whether the SK unit completes before the HM unit when both are enabled, no event is listed, and this is
choice number `n` (60_exceptions.md R113: "Either may come first"). Log entry 2. -/
opaque skFirst : Nat → Bool

/-- The platform's choice of window, `ENGINE_BASE` in units of 0x20000 (OPEN, 00_scope.md R9). Log entry 12. -/
opaque engineWindow : Nat

/-- `ENGINE_BASE`, the platform address of offset 0, aligned to 0x20000 (00_scope.md R9). -/
def engineBase : Nat := engineWindow * 0x20000

/-- The number of bus masters beyond the first (OPEN, 00_scope.md R9). Log entry 12. -/
opaque otherHosts : Nat

/-- `N_HOSTS`, at least 1 (00_scope.md R9). -/
def nHosts : Nat := otherHosts + 1

end Sys2Proof.Config
end

