-- ==== Sys2Proof/Syntax.lean ====
section
/-! DEFINITION. The names of the engine: its two units, its nine commands (30_encoding.md R63), the registers of the
register map (20_memory.md R42), the access widths of the bus, and the assembler's command operands (R70). -/

namespace Sys2Proof

/-- The two units, each with its own command register, status and latch (00_scope.md R4, R16). -/
inductive UnitId where
  | hm
  | sk
deriving DecidableEq, Repr

/-- The commands, one constructor for each row of the opcode map (30_encoding.md R63), with the immediates of R64. -/
inductive Instr where
  /-- HM.INIT with the seed signedness bit S (R87). -/
  | hmInit (signed : Bool)
  /-- HM.INITT (R88). -/
  | hmInitt
  /-- HM.GEN with the key length LEN (R89). -/
  | hmGen (len : BitVec 16)
  /-- SK.INIT (R97). -/
  | skInit
  /-- SK.INITT (R98). -/
  | skInitt
  /-- SK.RAW (R99). -/
  | skRaw
  /-- SK.RANGE (R100). -/
  | skRange
  /-- PX.ROTL with the rotation amount SHAMT (R105). -/
  | pxRotl (shamt : BitVec 16)
  /-- PX.BRX (R106). -/
  | pxBrx
deriving DecidableEq, Repr

/-- The unit a command is legal in (30_encoding.md R63). -/
def Instr.unit : Instr → UnitId
  | .hmInit _ => .hm
  | .hmInitt => .hm
  | .hmGen _ => .hm
  | .skInit => .sk
  | .skInitt => .sk
  | .skRaw => .sk
  | .skRange => .sk
  | .pxRotl _ => .sk
  | .pxBrx => .sk

/-- A command together with the unit whose CMD register it is written to. -/
structure Command where
  unit : UnitId
  instr : Instr
deriving DecidableEq, Repr

/-- A command as the assembler reads it (30_encoding.md R70): operands are numbers of any size, and HM.GEN may leave
its length out. -/
inductive AsmCommand where
  | hmInit (signed : Bool)
  | hmInitt
  | hmGen (len : Option Nat)
  | skInit
  | skInitt
  | skRaw
  | skRange
  | pxRotl (s : Nat)
  | pxBrx
deriving DecidableEq, Repr

/-- The widths of a bus access, 1, 2, 4 or 8 bytes (20_memory.md R46, R47). -/
inductive Width where
  | b1
  | b2
  | b4
  | b8
deriving DecidableEq, Repr

/-- The width in bytes. -/
def Width.bytes : Width → Nat
  | .b1 => 1
  | .b2 => 2
  | .b4 => 4
  | .b8 => 8

/-- The registers of the register map (20_memory.md R42). -/
inductive Reg where
  | hmCmd
  | hmStatus
  | hmSeedIn
  | hmSeed
  | hmCount
  | hmTime
  | hmKeylen
  | hmHexlen
  | hmRawkey0
  | hmRawkey1
  | hmRawkey2
  | hmRawkey3
  | skCmd
  | skStatus
  | skKeyIn
  | skMaster
  | skCursor
  | skMin
  | skMax
  | skResult
  | pxIn
  | pxOut
  | skSubkey (i : Fin 16)
deriving DecidableEq, Repr

end Sys2Proof
end

