-- ==== Sys2Proof/WellFormed.lean ====
section
/-! DEFINITION. Well-formedness: a command goes to its own unit (30_encoding.md R63, R67), and an assembler operand is in
0..65535 (30_encoding.md R70). The fields of `Instr` have the widths of R62, so no other check is left to make. -/

namespace Sys2Proof

/-- A command is well formed when it is written to the unit its opcode is legal in (30_encoding.md R63). -/
def Command.wf (c : Command) : Bool :=
  c.instr.unit = c.unit

/-- "An assembler refuses an L or s outside 0..65535" (30_encoding.md R70). -/
def AsmCommand.wf : AsmCommand → Bool
  | .hmGen (some l) => l ≤ 65535
  | .pxRotl s => s ≤ 65535
  | .hmInit _ => true
  | .hmInitt => true
  | .hmGen none => true
  | .skInit => true
  | .skInitt => true
  | .skRaw => true
  | .skRange => true
  | .pxBrx => true

end Sys2Proof
end

