-- ==== Sys2Proof/Decode.lean ====
section
/-! DEFINITION. Command decoding (30_encoding.md R61 to R67), total on every 64-bit word and rejecting by name, and the
encoder `enc` of R70. -/

namespace Sys2Proof

/-- Why a word is ILLEGAL (30_encoding.md R67). The hardware reports every one as ILLEGAL_COMMAND; the names are the
model's (log entry 15). -/
inductive Illegal where
  /-- a nonzero RSV field -/
  | reservedHigh
  /-- an OP not listed for the unit, the other unit's opcodes and 0x00 among them -/
  | opcode
  /-- a nonzero reserved SUB bit -/
  | reservedSub
  /-- a nonzero IMM16 where the command takes none -/
  | immediate
deriving DecidableEq, Repr

/-- OP, bits 7:0 (30_encoding.md R62). -/
def opField (w : Word) : BitVec 8 := w.extractLsb' 0 8

/-- SUB, bits 15:8 (30_encoding.md R62). -/
def subField (w : Word) : BitVec 8 := w.extractLsb' 8 8

/-- IMM16, bits 31:16 (30_encoding.md R62). -/
def immField (w : Word) : BitVec 16 := w.extractLsb' 16 16

/-- RSV, bits 63:32 (30_encoding.md R62). -/
def rsvField (w : Word) : BitVec 32 := w.extractLsb' 32 32

/-- A command that takes neither SUB nor IMM16: both must be 0 (30_encoding.md R62). -/
def plainForm (sub : BitVec 8) (imm : BitVec 16) (i : Instr) : Except Illegal Instr :=
  if sub ≠ 0 then .error .reservedSub
  else if imm ≠ 0 then .error .immediate
  else .ok i

/-- HM.INIT: S is SUB[0], the other SUB bits and IMM16 must be 0 (30_encoding.md R66). -/
def initForm (sub : BitVec 8) (imm : BitVec 16) : Except Illegal Instr :=
  if sub.extractLsb' 1 7 ≠ 0 then .error .reservedSub
  else if imm ≠ 0 then .error .immediate
  else .ok (.hmInit (sub.getLsbD 0))

/-- A command whose IMM16 is an operand: only SUB must be 0 (30_encoding.md R66). -/
def immForm (sub : BitVec 8) (i : Instr) : Except Illegal Instr :=
  if sub ≠ 0 then .error .reservedSub else .ok i

/-- The opcodes of HM (30_encoding.md R63, R66). -/
def decodeHm (op sub : BitVec 8) (imm : BitVec 16) : Except Illegal Instr :=
  if op = 0x01 then initForm sub imm
  else if op = 0x02 then plainForm sub imm .hmInitt
  else if op = 0x03 then immForm sub (.hmGen imm)
  else .error .opcode

/-- The opcodes of SK (30_encoding.md R63, R66). -/
def decodeSk (op sub : BitVec 8) (imm : BitVec 16) : Except Illegal Instr :=
  if op = 0x11 then plainForm sub imm .skInit
  else if op = 0x12 then plainForm sub imm .skInitt
  else if op = 0x13 then plainForm sub imm .skRaw
  else if op = 0x14 then plainForm sub imm .skRange
  else if op = 0x21 then immForm sub (.pxRotl imm)
  else if op = 0x22 then plainForm sub imm .pxBrx
  else .error .opcode

/-- `decode(u, w)` of 30_encoding.md R66. -/
def decode (u : UnitId) (w : Word) : Except Illegal Instr :=
  if rsvField w ≠ 0 then .error .reservedHigh
  else match u with
    | .hm => decodeHm (opField w) (subField w) (immField w)
    | .sk => decodeSk (opField w) (subField w) (immField w)

/-- The opcode of a command (30_encoding.md R63). -/
def opcodeOf : Instr → BitVec 8
  | .hmInit _ => 0x01
  | .hmInitt => 0x02
  | .hmGen _ => 0x03
  | .skInit => 0x11
  | .skInitt => 0x12
  | .skRaw => 0x13
  | .skRange => 0x14
  | .pxRotl _ => 0x21
  | .pxBrx => 0x22

/-- The SUB field of a command: S for HM.INIT, else 0 (30_encoding.md R62). -/
def subOf : Instr → BitVec 8
  | .hmInit s => if s then 1 else 0
  | .hmInitt => 0
  | .hmGen _ => 0
  | .skInit => 0
  | .skInitt => 0
  | .skRaw => 0
  | .skRange => 0
  | .pxRotl _ => 0
  | .pxBrx => 0

/-- The IMM16 field of a command: LEN or SHAMT, else 0 (30_encoding.md R62, R64). -/
def immOf : Instr → BitVec 16
  | .hmInit _ => 0
  | .hmInitt => 0
  | .hmGen l => l
  | .skInit => 0
  | .skInitt => 0
  | .skRaw => 0
  | .skRange => 0
  | .pxRotl s => s
  | .pxBrx => 0

/-- The command word, its fields laid out as 30_encoding.md R62 draws them. -/
def encode (i : Instr) : Word :=
  (0#32 ++ immOf i ++ subOf i ++ opcodeOf i : BitVec 64)

/-- The `match` column of spec/opcode_table.json. -/
def rowMatch (i : Instr) : Word := (opcodeOf i).setWidth 64

/-- The `mask` column of spec/opcode_table.json: every bit but the operand bits of the row. -/
def rowMask : Instr → Word
  | .hmInit _ => 0xFFFFFFFFFFFFFEFF
  | .hmInitt => 0xFFFFFFFFFFFFFFFF
  | .hmGen _ => 0xFFFFFFFF0000FFFF
  | .skInit => 0xFFFFFFFFFFFFFFFF
  | .skInitt => 0xFFFFFFFFFFFFFFFF
  | .skRaw => 0xFFFFFFFFFFFFFFFF
  | .skRange => 0xFFFFFFFFFFFFFFFF
  | .pxRotl _ => 0xFFFFFFFF0000FFFF
  | .pxBrx => 0xFFFFFFFFFFFFFFFF

/-- The unit whose CMD register a bare word belongs to: the one that accepts it, and HM for a word no unit accepts. No
opcode is legal in both units (30_encoding.md R63). Log entry 8. -/
def homeUnit (w : Word) : UnitId :=
  match decode .sk w with
  | .ok _ => .sk
  | .error _ => .hm

/-- The instruction of a word given by its bits, as spec/opcode_table.json numbers them; the row's unit is the one that
accepts the word. -/
def decodeTableWord (nbits w : Nat) : Option Instr :=
  let word := BitVec.ofNat 64 (w % 2 ^ nbits)
  match decode (homeUnit word) word with
  | .ok i => some i
  | .error _ => none

end Sys2Proof
end

