-- ==== Sys2Proof/Machine/State.lean ====
section
/-! DEFINITION. The machine's state as plain data (10_state.md R18 to R36), its value after reset (R40), and the reasons a
step can stop. Registers of which only some bits are stored ("bits 63:16 read 0") have the width that is stored; a read
extends them with zeros (log entry 10). -/

namespace Sys2Proof.Machine

/-- The stored fields of a unit's STATUS register (10_state.md R31, R32). ERR is computed from ERRCODE, the reserved bits
read 0, and SSIGN, which only HM has, stands in `Hm`. -/
structure Status where
  busy : Bool
  done : Bool
  init : Bool
  errcode : BitVec 4
  overrun : Bool
deriving DecidableEq, Repr

/-- An accepted HM command with its operand snapshot (10_state.md R36). -/
structure HmLatch where
  cmd : Word
  seedIn : Word
deriving DecidableEq, Repr

/-- An accepted SK command with its operand snapshot (10_state.md R36). -/
structure SkLatch where
  cmd : Word
  keyIn : Word
  min : Word
  max : Word
  pxIn : Word
deriving DecidableEq, Repr

/-- The hash-mix unit (10_state.md R20 to R24). -/
structure Hm where
  status : Status
  /-- HM_STATUS.SSIGN (R20) -/
  ssign : Bool
  /-- HM_SEED_IN (R24) -/
  seedIn : Word
  /-- HM_SEED (R20) -/
  seed : Word
  /-- HM_COUNT (R21) -/
  count : Word
  /-- HM_TIME (R22) -/
  time : Word
  /-- HM_KEYLEN[15:0] (R22) -/
  keylen : BitVec 16
  /-- HM_HEXLEN[6:0] (R22) -/
  hexlen : BitVec 7
  /-- HM_RAWKEY0, raw_key[63:0] (R22) -/
  rawkey0 : Word
  /-- HM_RAWKEY1, raw_key[127:64] -/
  rawkey1 : Word
  /-- HM_RAWKEY2, raw_key[191:128] -/
  rawkey2 : Word
  /-- HM_RAWKEY3, raw_key[255:192] -/
  rawkey3 : Word
  /-- HM.PEND, empty or one accepted command (R36) -/
  pend : Option HmLatch
deriving DecidableEq, Repr

/-- The subkey-schedule unit with the pipeline's operand and result (10_state.md R25 to R30). -/
structure Sk where
  status : Status
  /-- SK_KEY_IN (R30) -/
  keyIn : Word
  /-- SK_MASTER (R25) -/
  master : Word
  /-- SUBKEY[0..15] (R26) -/
  subkey : Vector Word 16
  /-- SK_CURSOR[3:0] (R27) -/
  cursor : BitVec 4
  /-- SK_MIN (R29) -/
  min : Word
  /-- SK_MAX (R29) -/
  max : Word
  /-- SK_RESULT (R28) -/
  result : Word
  /-- PX_IN (R30) -/
  pxIn : Word
  /-- PX_OUT (R30) -/
  pxOut : Word
  /-- SK.PEND, empty or one accepted command (R36) -/
  pend : Option SkLatch
deriving DecidableEq, Repr

/-- One atomic transition of the execution (20_memory.md R54): a host's bus read or write, the completion step of a unit,
or reset. The model's own: the interleaving is a list of these (log entry 1). -/
inductive Event where
  /-- `MemRead(off, width)` by a host (R47, R48) -/
  | read (host : Nat) (off : Offset) (width : Width)
  /-- `MemWrite(off, width, value)` by a host (R47, R49) -/
  | write (host : Nat) (off : Offset) (width : Width) (value : Word)
  /-- the engine step of a unit (10_state.md R39) -/
  | complete (u : UnitId)
  /-- the platform asserts reset (70_reset_and_hazards.md R123) -/
  | reset
deriving DecidableEq, Repr

/-- What one host read returned (70_reset_and_hazards.md R133). The model's own (log entry 5). -/
structure Reading where
  host : Nat
  off : Offset
  width : Width
  value : Word
deriving DecidableEq, Repr

/-- The whole machine. `hm` and `sk` are the engine's state; the other fields are the model's own and hold the
environment: the events to come, the values of the time source, two counters that index free values, and what the hosts
have read. -/
structure State where
  hm : Hm
  sk : Sk
  /-- the events to come, in the total order of 20_memory.md R54 (log entry 1) -/
  events : List Event
  /-- the values the time source answers the next draws with (60_exceptions.md R116, log entry 4) -/
  timeFeed : List Word
  /-- how many draws were taken, the index of the free value `Config.nowUs` (log entry 4) -/
  drawCount : Nat
  /-- how many free choices of a unit were taken, the index of `Config.skFirst` (log entry 2) -/
  turnCount : Nat
  /-- what the hosts have read, oldest first (log entry 5) -/
  readLog : List Reading
deriving DecidableEq, Repr

/-- The faults of the model. The spec has none ("`fault`: not used; the engine has no trap",
93_implementation_defined.md). -/
inductive Fault where
  /-- A completion is asked of unit `u` while its latch is empty. Raised by a meaning whose unit has no accepted command,
  and by a completion step of a unit that is BUSY with an empty latch, a state 10_state.md R36 excludes. Safe: the model
  stops where the spec gives no transition, and no step of a state that satisfies `Safety.Consistent` raises it
  (log entry 9). -/
  | emptyLatch (u : UnitId)
deriving DecidableEq, Repr

/-- The refusals of the model. -/
inductive Refusal where
  /-- The instruction has no meaning in the model. No arm of `exec` answers it: every row of the opcode table has its
  meaning. Safe: the model would stop. -/
  | notModelled (mnemonic : String)
deriving DecidableEq, Repr

/-- STATUS after reset: every field 0 (10_state.md R31, R40). -/
def Status.reset : Status :=
  { busy := false, done := false, init := false, errcode := 0, overrun := false }

/-- HM after reset (10_state.md R40). -/
def Hm.reset : Hm :=
  { status := Status.reset, ssign := false, seedIn := 0, seed := 0, count := 0, time := 0, keylen := 0, hexlen := 0,
    rawkey0 := 0, rawkey1 := 0, rawkey2 := 0, rawkey3 := 0, pend := none }

/-- SK after reset (10_state.md R40). -/
def Sk.reset : Sk :=
  { status := Status.reset, keyIn := 0, master := 0, subkey := Vector.replicate 16 0, cursor := 0, min := 0, max := 0,
    result := 0, pxIn := 0, pxOut := 0, pend := none }

/-- The machine right after reset (10_state.md R40, 70_reset_and_hazards.md R124), with no event listed. -/
def State.reset : State :=
  { hm := Hm.reset, sk := Sk.reset, events := [], timeFeed := [], drawCount := 0, turnCount := 0, readLog := [] }

end Sys2Proof.Machine
end

