-- ==== Sys2Proof/Machine/Operands.lean ====
section
/-! DEFINITION. The operands of the commands (30_encoding.md R64, R65): the snapshots taken at acceptance
(10_state.md R36, R38) and the numbers a command reads from them. -/

namespace Sys2Proof.Machine

/-- The latch HM fills when it accepts the word `w` (10_state.md R36, R38). -/
def hmSnapshot (h : Hm) (w : Word) : HmLatch :=
  { cmd := w, seedIn := h.seedIn }

/-- The latch SK fills when it accepts the word `w` (10_state.md R36, R38). -/
def skSnapshot (k : Sk) (w : Word) : SkLatch :=
  { cmd := w, keyIn := k.keyIn, min := k.min, max := k.max, pxIn := k.pxIn }

/-- `seed_int`, in [-2^63, 2^64-1] (10_state.md R20). -/
def seedInt (ssign : Bool) (seed : Word) : Int :=
  if ssign then sint seed else uint seed

/-- `mn = sint(PEND.min)` (43_sampling.md R100). -/
def rangeMin (p : SkLatch) : Int := sint p.min

/-- `mx = sint(PEND.max)` (43_sampling.md R100). -/
def rangeMax (p : SkLatch) : Int := sint p.max

/-- `span = mx - mn + 1`, exact (43_sampling.md R100). -/
def rangeSpan (p : SkLatch) : Int := rangeMax p - rangeMin p + 1

/-- `x = PEND.px_in[31:0]` (44_pipeline_diag.md R105). -/
def rotateOperand (p : SkLatch) : Half := p.pxIn.extractLsb' 0 32

/-- `high`, bits 63:32 of a master key (42_subkey_schedule.md R93). -/
def highLane (mk : Word) : Half := mk.extractLsb' 32 32

/-- `low`, bits 31:0 of a master key (42_subkey_schedule.md R93). -/
def lowLane (mk : Word) : Half := mk.extractLsb' 0 32

end Sys2Proof.Machine
end

