-- ==== Sys2Proof/Machine/Flags.lean ====
section
/-! DEFINITION. The error codes (60_exceptions.md R107) and everything that reads or writes a STATUS register
(10_state.md R31, R32). -/

namespace Sys2Proof.Machine

/-- The codes a completion posts (60_exceptions.md R107). Codes 5 to 15 are never produced. -/
inductive ErrCode where
  | ok
  | invalidArgument
  | notInitialised
  | illegalCommand
  | countExhausted
deriving DecidableEq, Repr

/-- The number of a code (60_exceptions.md R107). -/
def codeBits : ErrCode → BitVec 4
  | .ok => 0
  | .invalidArgument => 1
  | .notInitialised => 2
  | .illegalCommand => 3
  | .countExhausted => 4

/-- STATUS.ERR "equals `ERRCODE != 0`" (10_state.md R31). -/
def errFlag (st : Status) : Bool := st.errcode ≠ 0

/-- The 64-bit value a host reads at a STATUS offset (10_state.md R31); `ssign` is bit 4, which reads 0 for SK. -/
def statusWord (st : Status) (ssign : Bool) : Word :=
  (0#47 ++ BitVec.ofBool st.overrun ++ 0#4 ++ st.errcode ++ 0#3 ++ BitVec.ofBool ssign ++ BitVec.ofBool st.init ++
    BitVec.ofBool (errFlag st) ++ BitVec.ofBool st.done ++ BitVec.ofBool st.busy : BitVec 64)

/-- STATUS at acceptance: BUSY set, DONE and ERRCODE cleared (10_state.md R38). -/
def acceptStatus (st : Status) : Status :=
  { st with busy := true, done := false, errcode := 0 }

/-- STATUS at completion: BUSY cleared, DONE set, the code posted (10_state.md R39). -/
def completeStatus (st : Status) (code : ErrCode) : Status :=
  { st with busy := false, done := true, errcode := codeBits code }

/-- STATUS when a CMD write is dropped (10_state.md R38). -/
def overrunStatus (st : Status) : Status := { st with overrun := true }

/-- STATUS after a host write of `v`: only bit 16 acts, and clears OVERRUN (10_state.md R32, 20_memory.md R49). -/
def writeStatus (st : Status) (v : Word) : Status :=
  if v.getLsbD 16 then { st with overrun := false } else st

/-- INIT set by a construction (10_state.md R32). -/
def initStatus (st : Status) : Status := { st with init := true }

end Sys2Proof.Machine
end

