-- ==== Sys2Proof/Machine/Text.lean ====
section
/-! DEFINITION. The text conversions `dec` and `hexU` (40_primitives.md R81, R82). A text is a list of bytes, first
character first (00_scope.md R15). -/

namespace Sys2Proof.Machine

/-- The base-`b` digits of `n` put in front of `acc`, most significant first, with no leading zero; `fuel` bounds the
number of digits. -/
def digitsOnto (b : Nat) : Nat → Nat → List Nat → List Nat
  | 0, _, acc => acc
  | fuel + 1, n, acc => if n = 0 then acc else digitsOnto b fuel (n / b) (n % b :: acc)

/-- The base-`b` digits of `n`, most significant first, no leading zero; none for 0. A number of k bits has at most k
digits in a base of 2 or more. -/
def digitsOf (b n : Nat) : List Nat := digitsOnto b (Nat.log2 n + 1) n []

/-- The digits of `n` as the spec writes a number: the single digit 0 for zero (40_primitives.md R81, R82). -/
def numeral (b n : Nat) : List Nat := if n = 0 then [0] else digitsOf b n

/-- The ASCII byte of a digit, 0x30 to 0x39 for 0 to 9 and `A` to `F` for 10 to 15 (40_primitives.md R81, R82). -/
def digitByte (d : Nat) : Byte :=
  if d < 10 then BitVec.ofNat 8 (0x30 + d) else BitVec.ofNat 8 (0x41 + (d - 10))

/-- `dec(z)` (40_primitives.md R81): decimal text, `-` (0x2D) in front of a negative number. -/
def dec : Int → List Byte
  | .ofNat n => (numeral 10 n).map digitByte
  | .negSucc n => 0x2D#8 :: (numeral 10 (n + 1)).map digitByte

/-- `hexU(x)` (40_primitives.md R82): uppercase hexadecimal text with no prefix. -/
def hexU (x : Nat) : List Byte := (numeral 16 x).map digitByte

end Sys2Proof.Machine
end

