-- ==== Sys2Proof/Machine/Registers.lean ====
section
/-! DEFINITION. The register map (20_memory.md R42), the value of a register a host reads (R48), and the key window
(41_hash_mix.md R90). -/

namespace Sys2Proof.Machine

/-- The offset column of the register map (20_memory.md R42). -/
def regOffset : Reg → Offset
  | .hmCmd => 0x000
  | .hmStatus => 0x008
  | .hmSeedIn => 0x010
  | .hmSeed => 0x018
  | .hmCount => 0x020
  | .hmTime => 0x028
  | .hmKeylen => 0x030
  | .hmHexlen => 0x038
  | .hmRawkey0 => 0x040
  | .hmRawkey1 => 0x048
  | .hmRawkey2 => 0x050
  | .hmRawkey3 => 0x058
  | .skCmd => 0x100
  | .skStatus => 0x108
  | .skKeyIn => 0x110
  | .skMaster => 0x118
  | .skCursor => 0x120
  | .skMin => 0x128
  | .skMax => 0x130
  | .skResult => 0x138
  | .pxIn => 0x140
  | .pxOut => 0x148
  | .skSubkey i => 0x180 + 8 * BitVec.ofNat 17 i.val

/-- The registers of HM, in the order of their offsets (20_memory.md R42). -/
def hmRegs : List Reg :=
  [.hmCmd, .hmStatus, .hmSeedIn, .hmSeed, .hmCount, .hmTime, .hmKeylen, .hmHexlen,
   .hmRawkey0, .hmRawkey1, .hmRawkey2, .hmRawkey3]

/-- The registers of SK and the pipeline, in the order of their offsets (20_memory.md R42). -/
def skRegs : List Reg :=
  [.skCmd, .skStatus, .skKeyIn, .skMaster, .skCursor, .skMin, .skMax, .skResult, .pxIn, .pxOut]

/-- The subkey file, index i at 0x180 + 8*i (20_memory.md R42). -/
def subkeyRegs : List Reg :=
  [.skSubkey 0, .skSubkey 1, .skSubkey 2, .skSubkey 3, .skSubkey 4, .skSubkey 5, .skSubkey 6, .skSubkey 7,
   .skSubkey 8, .skSubkey 9, .skSubkey 10, .skSubkey 11, .skSubkey 12, .skSubkey 13, .skSubkey 14, .skSubkey 15]

/-- Every register of the map (20_memory.md R42). -/
def allRegs : List Reg := hmRegs ++ skRegs ++ subkeyRegs

/-- The register an offset names; none at a reserved or misaligned offset and in the key window (20_memory.md R42, R43). -/
def regAt (o : Offset) : Option Reg := allRegs.find? fun r => regOffset r = o

/-- The value of a register as a host reads it: RO and RW registers their value, WO registers 0 (20_memory.md R42, R43,
R48). -/
def readReg (hm : Hm) (sk : Sk) : Reg → Word
  | .hmCmd => 0
  | .hmStatus => statusWord hm.status hm.ssign
  | .hmSeedIn => hm.seedIn
  | .hmSeed => hm.seed
  | .hmCount => hm.count
  | .hmTime => hm.time
  | .hmKeylen => hm.keylen.setWidth 64
  | .hmHexlen => hm.hexlen.setWidth 64
  | .hmRawkey0 => hm.rawkey0
  | .hmRawkey1 => hm.rawkey1
  | .hmRawkey2 => hm.rawkey2
  | .hmRawkey3 => hm.rawkey3
  | .skCmd => 0
  | .skStatus => statusWord sk.status false
  | .skKeyIn => sk.keyIn
  | .skMaster => sk.master
  | .skCursor => sk.cursor.setWidth 64
  | .skMin => sk.min
  | .skMax => sk.max
  | .skResult => sk.result
  | .pxIn => sk.pxIn
  | .pxOut => sk.pxOut
  | .skSubkey i => sk.subkey[i.val]

/-- The 256-bit `raw_key`, HM_RAWKEY3 ++ ... ++ HM_RAWKEY0 (10_state.md R22, 41_hash_mix.md R90). -/
def rawKey (h : Hm) : BitVec 256 := h.rawkey3 ++ h.rawkey2 ++ h.rawkey1 ++ h.rawkey0

/-- `KEYBYTE(i)` (41_hash_mix.md R90). DESIGN CHOICE, in states that R90 excludes and no run reaches: with HM_HEXLEN 0 and
`i` below HM_KEYLEN the byte is character `i` of the raw key's text, and where the index is past the text it is 0
(log entry 18). -/
def keyByte (h : Hm) (i : Nat) : Byte :=
  if i < h.keylen.toNat then (hexU (rawKey h).toNat).getD (i % h.hexlen.toNat) 0 else 0

/-- The number whose bytes these are, the first least significant (20_memory.md R44). -/
def littleEndian : List Byte → Nat
  | [] => 0
  | b :: bs => b.toNat + 256 * littleEndian bs

/-- A read of the key window at byte `i` (20_memory.md R47): the characters in little-endian order, 0 when misaligned. -/
def keyWindowRead (h : Hm) (i : Nat) (w : Width) : Word :=
  if i % w.bytes = 0 then
    BitVec.ofNat 64 (littleEndian ((List.range w.bytes).map fun j => keyByte h (i + j)))
  else 0

end Sys2Proof.Machine
end

