-- ==== Sys2Proof/Machine/Ops.lean ====
section
/-! DEFINITION. The named operations of the machine: the host's bus primitives (20_memory.md R46 to R49), acceptance
(10_state.md R38), `complete(code)`, which is also how an error is taken (60_exceptions.md R108), the time draw (R116), and
the effect of reset (70_reset_and_hazards.md R123). -/

namespace Sys2Proof.Machine

/-- The outcome of a step or a meaning. -/
abbrev Result := Host.Outcome State Fault Refusal

/-- The machine with another HM unit. -/
def State.withHm (s : State) (h : Hm) : State := { s with hm := h }

/-- The machine with another SK unit. -/
def State.withSk (s : State) (k : Sk) : State := { s with sk := k }

/-- Acceptance on HM (10_state.md R38): a BUSY unit drops the write and sets OVERRUN, an idle one latches the word and its
operand snapshot. -/
def acceptHm (h : Hm) (w : Word) : Hm :=
  if h.status.busy then { h with status := overrunStatus h.status }
  else { h with pend := some (hmSnapshot h w), status := acceptStatus h.status }

/-- Acceptance on SK (10_state.md R38). -/
def acceptSk (k : Sk) (w : Word) : Sk :=
  if k.status.busy then { k with status := overrunStatus k.status }
  else { k with pend := some (skSnapshot k w), status := acceptStatus k.status }

/-- `complete(code)` with the rest of the completion step (10_state.md R39, 60_exceptions.md R108): the latch is emptied,
BUSY cleared, DONE set and the code posted. An error is taken by this operation alone: it saves nothing else, changes no
mode and transfers no control (60_exceptions.md R110), and there is no return from it (R111). -/
def complete (u : UnitId) (code : ErrCode) (s : State) : State :=
  match u with
  | .hm => s.withHm { s.hm with pend := none, status := completeStatus s.hm.status code }
  | .sk => s.withSk { s.sk with pend := none, status := completeStatus s.sk.status code }

/-- `raise E` (00_scope.md R14): the command completes with the code and writes no other state. -/
def raise (u : UnitId) (code : ErrCode) (s : State) : Result := .next (complete u code s)

/-- The body of an HM command runs on the unit's latch (10_state.md R39). -/
def withHmLatch (s : State) (body : HmLatch → Result) : Result :=
  match s.hm.pend with
  | none => .fault (.emptyLatch .hm)
  | some p => body p

/-- The body of an SK command runs on the unit's latch (10_state.md R39). -/
def withSkLatch (s : State) (body : SkLatch → Result) : Result :=
  match s.sk.pend with
  | none => .fault (.emptyLatch .sk)
  | some p => body p

/-- The value of the next `draw now_us` (60_exceptions.md R116): the next value the state lists, or else a free value. -/
def drawnTime (s : State) : Word :=
  match s.timeFeed with
  | t :: _ => t
  | [] => Config.nowUs s.drawCount

/-- The machine after a draw. -/
def afterDraw (s : State) : State :=
  { s with timeFeed := s.timeFeed.tail, drawCount := s.drawCount + 1 }

/-- The host read primitive (20_memory.md R46 to R48). It has no side effect. -/
def memRead (s : State) (o : Offset) (w : Width) : Word :=
  if o.toNat < 0x10000 then
    if w = .b8 then
      match regAt o with
      | some r => readReg s.hm s.sk r
      | none => 0
    else 0
  else keyWindowRead s.hm (o.toNat - 0x10000) w

/-- The effect of an admitted 8-byte write on the register it names (20_memory.md R43, R49). -/
def writeReg (s : State) (v : Word) : Reg → State
  | .hmCmd => s.withHm (acceptHm s.hm v)
  | .hmStatus => s.withHm { s.hm with status := writeStatus s.hm.status v }
  | .hmSeedIn => s.withHm { s.hm with seedIn := v }
  | .hmSeed => s
  | .hmCount => s
  | .hmTime => s
  | .hmKeylen => s
  | .hmHexlen => s
  | .hmRawkey0 => s
  | .hmRawkey1 => s
  | .hmRawkey2 => s
  | .hmRawkey3 => s
  | .skCmd => s.withSk (acceptSk s.sk v)
  | .skStatus => s.withSk { s.sk with status := writeStatus s.sk.status v }
  | .skKeyIn => s.withSk { s.sk with keyIn := v }
  | .skMaster => s
  | .skCursor => s
  | .skMin => s.withSk { s.sk with min := v }
  | .skMax => s.withSk { s.sk with max := v }
  | .skResult => s
  | .pxIn => s.withSk { s.sk with pxIn := v }
  | .pxOut => s
  | .skSubkey _ => s

/-- The host write primitive (20_memory.md R46, R47, R49): only an 8-byte write to a register acts. -/
def memWrite (s : State) (o : Offset) (w : Width) (v : Word) : State :=
  if w = .b8 then
    match regAt o with
    | some r => writeReg s v r
    | none => s
  else s

/-- Reset (70_reset_and_hazards.md R123): every piece of the engine's state takes its reset value; the hosts, the time
source and the events to come are not the engine's (log entry 6). -/
def resetEngine (s : State) : State := { s with hm := Hm.reset, sk := Sk.reset }

/-- STATUS.BUSY of a unit. -/
def unitBusy (u : UnitId) (s : State) : Bool :=
  match u with
  | .hm => s.hm.status.busy
  | .sk => s.sk.status.busy

/-- The command word in a unit's latch (10_state.md R36). -/
def latchedWord (u : UnitId) (s : State) : Option Word :=
  match u with
  | .hm => s.hm.pend.map HmLatch.cmd
  | .sk => s.sk.pend.map SkLatch.cmd

/-- A unit made to hold the command word `w` as if just accepted: what acceptance writes on an idle unit
(10_state.md R38). -/
def latchCommand (u : UnitId) (w : Word) (s : State) : State :=
  match u with
  | .hm => s.withHm { s.hm with pend := some (hmSnapshot s.hm w), status := acceptStatus s.hm.status }
  | .sk => s.withSk { s.sk with pend := some (skSnapshot s.sk w), status := acceptStatus s.sk.status }

/-- The offset in the engine's window of a platform address, if it lies in the window at ENGINE_BASE: the engine
"occupies no other address" (20_memory.md R41, R52). -/
def offsetOfAddress (a : Nat) : Option Offset :=
  if Config.engineBase ≤ a ∧ a < Config.engineBase + 0x20000 then some (BitVec.ofNat 17 (a - Config.engineBase)) else none

end Sys2Proof.Machine
end

