-- ==== Sys2Proof/Machine/Primitives.lean ====
section
/-! DEFINITION. The datapath primitives of 40_primitives.md R72 to R78: pure functions, shared by the commands. -/

namespace Sys2Proof.Machine

/-- `a XOR b` on integers, bit by bit on infinite two's complement (40_primitives.md R72): the four lines of its closed
form, where `Int.negSucc m` is `-m-1`. -/
def intXor : Int → Int → Int
  | .ofNat m, .ofNat n => .ofNat (m ^^^ n)
  | .negSucc m, .ofNat n => .negSucc (m ^^^ n)
  | .ofNat m, .negSucc n => .negSucc (m ^^^ n)
  | .negSucc m, .negSucc n => .ofNat (m ^^^ n)

/-- `rotl32(x, s)`, s in 0..32 (40_primitives.md R74), the formula verbatim; the mask is the 32-bit width. For s > 32 the
spec defines nothing and no caller passes such an s (log entry 17). -/
def rotl32 (x : Half) (s : Nat) : Half :=
  (x <<< s) ||| (x >>> (32 - s))

/-- The bit reversal built bit by bit as 40_primitives.md R75 quotes it: for each i below `n`, bit 63 - i is set when bit
i of `v` is. -/
def reversedBits (v : Word) : Nat → Word
  | 0 => 0
  | n + 1 => reversedBits v n ||| (if v.getLsbD n then 1#64 <<< (63 - n) else 0)

/-- `rev64(v)` (40_primitives.md R75): all 64 bit positions, 0 to 63 (90_conflicts.md C5). -/
def rev64 (v : Word) : Word := reversedBits v 64

/-- `brx64(v) = v XOR rev64(v)` (40_primitives.md R76). -/
def brx64 (v : Word) : Word := v ^^^ rev64 v

/-- `avalanche_mix(v)` (40_primitives.md R78): unbounded shifts, no truncation (90_conflicts.md C2). -/
def avalancheMix (v : Nat) : Nat :=
  let a := v ^^^ (v >>> 13)
  let b := a ^^^ (a <<< 7)
  b ^^^ (b >>> 17)

end Sys2Proof.Machine
end

