-- ==== Sys2Proof/Machine/Sha256.lean ====
section
/-! DEFINITION. SHA-256 and `hashint` (40_primitives.md R83 to R85). The spec marks the algorithm and its constants as
general knowledge (93_implementation_defined.md G1, G2; log entry 13). -/

namespace Sys2Proof.Machine

/-- The eight working words, (a, ..., h) or H[0..7] (40_primitives.md R83). -/
structure ShaWords where
  a : Half
  b : Half
  c : Half
  d : Half
  e : Half
  f : Half
  g : Half
  h : Half
deriving DecidableEq, Repr

/-- `H0` (40_primitives.md R84). -/
def shaH0 : ShaWords :=
  { a := 0x6a09e667, b := 0xbb67ae85, c := 0x3c6ef372, d := 0xa54ff53a,
    e := 0x510e527f, f := 0x9b05688c, g := 0x1f83d9ab, h := 0x5be0cd19 }

/-- `K[0..63]` (40_primitives.md R84). -/
def shaK : List Half :=
  [0x428a2f98, 0x71374491, 0xb5c0fbcf, 0xe9b5dba5, 0x3956c25b, 0x59f111f1, 0x923f82a4, 0xab1c5ed5] ++
  [0xd807aa98, 0x12835b01, 0x243185be, 0x550c7dc3, 0x72be5d74, 0x80deb1fe, 0x9bdc06a7, 0xc19bf174] ++
  [0xe49b69c1, 0xefbe4786, 0x0fc19dc6, 0x240ca1cc, 0x2de92c6f, 0x4a7484aa, 0x5cb0a9dc, 0x76f988da] ++
  [0x983e5152, 0xa831c66d, 0xb00327c8, 0xbf597fc7, 0xc6e00bf3, 0xd5a79147, 0x06ca6351, 0x14292967] ++
  [0x27b70a85, 0x2e1b2138, 0x4d2c6dfc, 0x53380d13, 0x650a7354, 0x766a0abb, 0x81c2c92e, 0x92722c85] ++
  [0xa2bfe8a1, 0xa81a664b, 0xc24b8b70, 0xc76c51a3, 0xd192e819, 0xd6990624, 0xf40e3585, 0x106aa070] ++
  [0x19a4c116, 0x1e376c08, 0x2748774c, 0x34b0bcb5, 0x391c0cb3, 0x4ed8aa4a, 0x5b9cca4f, 0x682e6ff3] ++
  [0x748f82ee, 0x78a5636f, 0x84c87814, 0x8cc70208, 0x90befffa, 0xa4506ceb, 0xbef9a3f7, 0xc67178f2]

/-- `ROTR(x, n)` (40_primitives.md R83). -/
def rotr32 (x : Half) (n : Nat) : Half := (x >>> n) ||| (x <<< (32 - n))

/-- `Ch(x, y, z)` (40_primitives.md R83). -/
def shaCh (x y z : Half) : Half := (x &&& y) ^^^ (~~~x &&& z)

/-- `Maj(x, y, z)` (40_primitives.md R83). -/
def shaMaj (x y z : Half) : Half := (x &&& y) ^^^ (x &&& z) ^^^ (y &&& z)

/-- `S0` (40_primitives.md R83). -/
def shaBigS0 (x : Half) : Half := rotr32 x 2 ^^^ rotr32 x 13 ^^^ rotr32 x 22

/-- `S1` (40_primitives.md R83). -/
def shaBigS1 (x : Half) : Half := rotr32 x 6 ^^^ rotr32 x 11 ^^^ rotr32 x 25

/-- `s0` (40_primitives.md R83). -/
def shaSmallS0 (x : Half) : Half := rotr32 x 7 ^^^ rotr32 x 18 ^^^ (x >>> 3)

/-- `s1` (40_primitives.md R83). -/
def shaSmallS1 (x : Half) : Half := rotr32 x 17 ^^^ rotr32 x 19 ^^^ (x >>> 10)

/-- The number whose base-256 digits are the bytes, first byte most significant. -/
def bigEndian (m : List Byte) : Nat := m.foldl (fun n b => n * 256 + b.toNat) 0

/-- `be32` of each four bytes in turn (40_primitives.md R83). -/
def wordsOfBytes : List Byte → List Half
  | b0 :: b1 :: b2 :: b3 :: rest => (b0 ++ b1 ++ b2 ++ b3 : BitVec 32) :: wordsOfBytes rest
  | _ => []

/-- `be32` of a word: its four bytes, most significant first (40_primitives.md R83). -/
def bytesOfWord (x : Half) : List Byte :=
  [x.extractLsb' 24 8, x.extractLsb' 16 8, x.extractLsb' 8 8, x.extractLsb' 0 8]

/-- `be64` of a length (40_primitives.md R83). DESIGN CHOICE: a bit length of 2^64 or more, which has no 8-byte form and no
command reaches (R86), is taken modulo 2^64 (log entry 25). -/
def bytesOfLength (l : Nat) : List Byte :=
  bytesOfWord (BitVec.ofNat 32 (l >>> 32)) ++ bytesOfWord (BitVec.ofNat 32 l)

/-- The padded message `p` (40_primitives.md R83): 0x80, then `(55 - len(m)) mod 64` zeros, then the bit length. -/
def shaPad (m : List Byte) : List Byte :=
  m ++ [0x80#8] ++ List.replicate (((55 : Int) - m.length) % 64).toNat 0#8 ++ bytesOfLength (8 * m.length)

/-- `n` more words of the message schedule; the words are held newest first, so `W[t-2]`, `W[t-7]`, `W[t-15]` and
`W[t-16]` stand at 1, 6, 14 and 15 (40_primitives.md R83). -/
def extendSchedule : Nat → List Half → List Half
  | 0, w => w
  | n + 1, w =>
    extendSchedule n ((shaSmallS1 (w.getD 1 0) + w.getD 6 0 + shaSmallS0 (w.getD 14 0) + w.getD 15 0) :: w)

/-- The message schedule W[0..63] of a block (40_primitives.md R83). -/
def messageSchedule (block : List Byte) : List Half :=
  (extendSchedule 48 (wordsOfBytes block).reverse).reverse

/-- One round of the compression with constant `k` and schedule word `w` (40_primitives.md R83). -/
def shaRound (s : ShaWords) (k w : Half) : ShaWords :=
  let t1 := s.h + shaBigS1 s.e + shaCh s.e s.f s.g + k + w
  let t2 := shaBigS0 s.a + shaMaj s.a s.b s.c
  { a := t1 + t2, b := s.a, c := s.b, d := s.c, e := s.d + t1, f := s.e, g := s.f, h := s.g }

/-- The rounds, constants and schedule words in step (40_primitives.md R83). -/
def shaRounds : List Half → List Half → ShaWords → ShaWords
  | k :: ks, w :: ws, s => shaRounds ks ws (shaRound s k w)
  | _, _, s => s

/-- `H[k] <- (H[k] + (a,...,h)[k]) mod 2^32` (40_primitives.md R83). -/
def shaAdd (x y : ShaWords) : ShaWords :=
  { a := x.a + y.a, b := x.b + y.b, c := x.c + y.c, d := x.d + y.d,
    e := x.e + y.e, f := x.f + y.f, g := x.g + y.g, h := x.h + y.h }

/-- The hash words after one block (40_primitives.md R83). -/
def shaBlock (s : ShaWords) (block : List Byte) : ShaWords :=
  shaAdd s (shaRounds shaK (messageSchedule block) s)

/-- `n` blocks of 64 bytes in order (40_primitives.md R83). -/
def shaBlocks : Nat → ShaWords → List Byte → ShaWords
  | 0, s, _ => s
  | n + 1, s, p => shaBlocks n (shaBlock s (p.take 64)) (p.drop 64)

/-- The hash words as the 32 digest bytes (40_primitives.md R83). -/
def shaDigest (s : ShaWords) : List Byte :=
  bytesOfWord s.a ++ bytesOfWord s.b ++ bytesOfWord s.c ++ bytesOfWord s.d ++
  bytesOfWord s.e ++ bytesOfWord s.f ++ bytesOfWord s.g ++ bytesOfWord s.h

/-- `SHA256(m)` (40_primitives.md R83). -/
def sha256 (m : List Byte) : List Byte :=
  let p := shaPad m
  shaDigest (shaBlocks (p.length / 64) shaH0 p)

/-- `hashint(s)`: the digest as a number, first byte most significant (40_primitives.md R85). -/
def hashint (m : List Byte) : Nat := bigEndian (sha256 m)

end Sys2Proof.Machine
end

