-- ==== Sys2Proof/Machine/HashMix.lean ====
section
/-! DEFINITION. The hash-mix unit's commands: HM.INIT, HM.INITT and HM.GEN (41_hash_mix.md R87 to R89). -/

namespace Sys2Proof.Machine

/-- The generator constructed from a seed (41_hash_mix.md R87, R88): the count is 0, the result registers are cleared and
INIT is set. -/
def constructHm (h : Hm) (seed : Word) (ssign : Bool) : Hm :=
  { h with
    seed := seed, ssign := ssign, count := 0, time := 0, keylen := 0, hexlen := 0,
    rawkey0 := 0, rawkey1 := 0, rawkey2 := 0, rawkey3 := 0, status := initStatus h.status }

/-- `start`, step 1 of HM.GEN (41_hash_mix.md R89). -/
def genStart (seed : Int) (count : Nat) : Int := intXor seed (count * 1000003 : Nat)

/-- `hashed`, step 2 of HM.GEN (41_hash_mix.md R89). -/
def genHashed (seed : Int) (count : Nat) : Nat := hashint (dec (genStart seed count))

/-- `mixed`, step 3 of HM.GEN (41_hash_mix.md R89). -/
def genMixed (seed : Int) (count : Nat) : Nat := avalancheMix (genHashed seed count)

/-- `combined`, step 5 of HM.GEN, with the drawn time `t` (41_hash_mix.md R89). -/
def genCombined (seed : Int) (count : Nat) (t : Word) : Nat := genMixed seed count ^^^ uint t

/-- `raw`, step 6 of HM.GEN (41_hash_mix.md R89). -/
def genRaw (seed : Int) (count : Nat) (t : Word) : Nat := hashint (dec (genCombined seed count t))

/-- The results of a key generation of length `len` at time `t` (41_hash_mix.md R89 from step 7 on). -/
def storeKey (h : Hm) (len : BitVec 16) (t : Word) : Hm :=
  let raw := genRaw (seedInt h.ssign h.seed) (uint h.count) t
  let bits := BitVec.ofNat 256 raw
  { h with
    rawkey3 := bits.extractLsb' 192 64, rawkey2 := bits.extractLsb' 128 64,
    rawkey1 := bits.extractLsb' 64 64, rawkey0 := bits.extractLsb' 0 64,
    hexlen := BitVec.ofNat 7 (hexU raw).length, keylen := len, time := t, count := h.count + 1 }

/-- HM.INIT (41_hash_mix.md R87). -/
def execHmInit (signed : Bool) (s : State) : Result :=
  withHmLatch s fun p => .next (complete .hm .ok (s.withHm (constructHm s.hm p.seedIn signed)))

/-- HM.INITT (41_hash_mix.md R88). -/
def execHmInitt (s : State) : Result :=
  withHmLatch s fun _ => .next (complete .hm .ok ((afterDraw s).withHm (constructHm s.hm (drawnTime s) false)))

/-- HM.GEN (41_hash_mix.md R89), its errors in the order of 60_exceptions.md R109. -/
def execHmGen (len : BitVec 16) (s : State) : Result :=
  withHmLatch s fun _ =>
    if s.hm.status.init = false then raise .hm .notInitialised s
    else if len = 0 then raise .hm .invalidArgument s
    else if uint s.hm.count = 2 ^ 64 - 1 then raise .hm .countExhausted s
    else .next (complete .hm .ok ((afterDraw s).withHm (storeKey s.hm len (drawnTime s))))

end Sys2Proof.Machine
end

