-- ==== Sys2Proof/Machine/PipelineDiag.lean ====
section
/-! DEFINITION. The pipeline diagnostic commands: PX.ROTL and PX.BRX (44_pipeline_diag.md R105, R106). -/

namespace Sys2Proof.Machine

/-- PX.ROTL (44_pipeline_diag.md R105). -/
def execPxRotl (shamt : BitVec 16) (s : State) : Result :=
  withSkLatch s fun p =>
    if 32 < shamt.toNat then raise .sk .invalidArgument s
    else .next (complete .sk .ok
      (s.withSk { s.sk with pxOut := (rotl32 (rotateOperand p) shamt.toNat).setWidth 64 }))

/-- PX.BRX (44_pipeline_diag.md R106). -/
def execPxBrx (s : State) : Result :=
  withSkLatch s fun p => .next (complete .sk .ok (s.withSk { s.sk with pxOut := brx64 p.pxIn }))

end Sys2Proof.Machine
end

