-- ==== Sys2Proof/Machine/Sampling.lean ====
section
/-! DEFINITION. Subkey consumption and ranged sampling: SK.RAW and SK.RANGE (43_sampling.md R99 to R101). -/

namespace Sys2Proof.Machine

/-- `SUBKEY[c]` for the cursor `c` (10_state.md R34). -/
def subkeyAt (k : Sk) (c : BitVec 4) : Word := k.subkey[c.toNat]'(by have := c.isLt; omega)

/-- The raw value at the cursor: the permutation of the subkey read before the advance (43_sampling.md R99, R101,
90_conflicts.md C1). -/
def rawValue (k : Sk) : Word := brx64 (subkeyAt k k.cursor)

/-- A subkey is consumed: the cursor advances modulo 16 and the result is posted (43_sampling.md R99, R100). -/
def consumeSubkey (k : Sk) (result : Word) : Sk := { k with cursor := k.cursor + 1, result := result }

/-- `res = mn + (r mod span)`, exact (43_sampling.md R100). -/
def rangeResult (p : SkLatch) (r : Word) : Int := rangeMin p + (uint r : Int) % rangeSpan p

/-- SK.RAW (43_sampling.md R99). -/
def execSkRaw (s : State) : Result :=
  withSkLatch s fun _ =>
    if s.sk.status.init = false then raise .sk .notInitialised s
    else .next (complete .sk .ok (s.withSk (consumeSubkey s.sk (rawValue s.sk))))

/-- SK.RANGE (43_sampling.md R100). -/
def execSkRange (s : State) : Result :=
  withSkLatch s fun p =>
    if s.sk.status.init = false then raise .sk .notInitialised s
    else if rangeMax p < rangeMin p then raise .sk .invalidArgument s
    else .next (complete .sk .ok (s.withSk (consumeSubkey s.sk (bits64 (rangeResult p (rawValue s.sk))))))

end Sys2Proof.Machine
end

