-- ==== Sys2Proof/Machine/SubkeySchedule.lean ====
section
/-! DEFINITION. The subkey derivation and the two commands that run it: SK.INIT and SK.INITT (42_subkey_schedule.md R92 to
R98). -/

namespace Sys2Proof.Machine

/-- `SHIFT[r]`, "1 if r ∈ {0,1,8,15} else 2" (42_subkey_schedule.md R92). -/
def roundShift (r : Nat) : Nat := if r = 0 ∨ r = 1 ∨ r = 8 ∨ r = 15 then 1 else 2

/-- The subkey of round `r` from the rotated lanes (42_subkey_schedule.md R93). -/
def roundSubkey (high low : Half) (r : Nat) : Word := brx64 (high ++ low : BitVec 64) + BitVec.ofNat 64 (r * 12345)

/-- `n` rounds from round `r` on; the lanes carry over between rounds (42_subkey_schedule.md R93). -/
def deriveRounds : Nat → Nat → Half → Half → List Word
  | 0, _, _, _ => []
  | n + 1, r, high, low =>
    let high' := rotl32 high (roundShift r)
    let low' := rotl32 low (roundShift r)
    roundSubkey high' low' r :: deriveRounds n (r + 1) high' low'

/-- There is one subkey a round. -/
@[simp] theorem deriveRounds_length (n r : Nat) (high low : Half) : (deriveRounds n r high low).length = n := by
  induction n generalizing r high low with
  | zero => rfl
  | succ n ih => simp [deriveRounds, ih]

/-- `derive(mk)` (42_subkey_schedule.md R93). -/
def derive (mk : Word) : Vector Word 16 :=
  ⟨(deriveRounds 16 0 (highLane mk) (lowLane mk)).toArray, by simp⟩

/-- The schedule constructed from a master key (42_subkey_schedule.md R97, R98): all 16 subkeys in one step, the cursor and
the result 0, INIT set. -/
def constructSk (k : Sk) (mk : Word) : Sk :=
  { k with master := mk, subkey := derive mk, cursor := 0, result := 0, status := initStatus k.status }

/-- `(t div 1000) mod 2^64`, the drawn time in milliseconds (42_subkey_schedule.md R98, 60_exceptions.md R117). -/
def milliseconds (t : Word) : Word := bits64 (uint t / 1000 : Nat)

/-- SK.INIT (42_subkey_schedule.md R97). -/
def execSkInit (s : State) : Result :=
  withSkLatch s fun p => .next (complete .sk .ok (s.withSk (constructSk s.sk p.keyIn)))

/-- SK.INITT (42_subkey_schedule.md R98). -/
def execSkInitt (s : State) : Result :=
  withSkLatch s fun _ =>
    .next (complete .sk .ok ((afterDraw s).withSk (constructSk s.sk (milliseconds (drawnTime s)))))

end Sys2Proof.Machine
end

