-- ==== Sys2Proof/Machine/Dispatch.lean ====
section
/-! DEFINITION. `execute` of a completion step (10_state.md R39), one arm for each command (30_encoding.md R63). -/

namespace Sys2Proof.Machine

def exec (i : Instr) (s : State) : Host.Outcome State Fault Refusal :=
  match i with
  | .hmInit signed => Sys2Proof.Machine.execHmInit signed s
  | .hmInitt => Sys2Proof.Machine.execHmInitt s
  | .hmGen len => Sys2Proof.Machine.execHmGen len s
  | .skInit => Sys2Proof.Machine.execSkInit s
  | .skInitt => Sys2Proof.Machine.execSkInitt s
  | .skRaw => Sys2Proof.Machine.execSkRaw s
  | .skRange => Sys2Proof.Machine.execSkRange s
  | .pxRotl shamt => Sys2Proof.Machine.execPxRotl shamt s
  | .pxBrx => Sys2Proof.Machine.execPxBrx s

end Sys2Proof.Machine
end

