-- ==== Sys2Proof/Machine/Events.lean ====
section
/-! DEFINITION. The atomic transitions of the execution (20_memory.md R54): a host's access, a unit's completion step
(10_state.md R39), reset (70_reset_and_hazards.md R123), and what happens when no event is listed. -/

namespace Sys2Proof.Machine

/-- The completion of unit `u` on the latched word `w`: it is decoded and executed, and an ILLEGAL word completes with
ILLEGAL_COMMAND (30_encoding.md R66). -/
def completeWord (u : UnitId) (w : Word) (s : State) : Result :=
  match decode u w with
  | .ok i => exec i s
  | .error _ => raise u .illegalCommand s

/-- The engine step of unit `u` (10_state.md R39), "enabled exactly when `u.STATUS.BUSY == 1`"; where it is not enabled
the event changes nothing (log entry 3). -/
def completion (u : UnitId) (s : State) : Result :=
  if unitBusy u s then
    match latchedWord u s with
    | some w => completeWord u w s
    | none => .fault (.emptyLatch u)
  else .next s

/-- A host read: the value goes to the host, and the engine is unchanged (20_memory.md R48, R51). -/
def hostRead (host : Nat) (o : Offset) (w : Width) (s : State) : State :=
  { s with readLog := s.readLog ++ [{ host := host, off := o, width := w, value := memRead s o w }] }

/-- One event of the list (20_memory.md R54). -/
def applyEvent (e : Event) (s : State) : Result :=
  match e with
  | .read host o w => .next (hostRead host o w s)
  | .write _ o w v => .next (memWrite s o w v)
  | .complete u => completion u s
  | .reset => .next (resetEngine s)

/-- The engine's turn when no event is listed: an enabled completion "is eventually taken" (70_reset_and_hazards.md R132);
when both units are enabled either may come first (60_exceptions.md R113), by a free choice; an idle engine
stays as it is (log entry 2). -/
def engineTurn (s : State) : Result :=
  if s.hm.status.busy then
    if s.sk.status.busy then
      completion (if Config.skFirst s.turnCount then .sk else .hm) { s with turnCount := s.turnCount + 1 }
    else completion .hm s
  else if s.sk.status.busy then completion .sk s
  else .next s

end Sys2Proof.Machine
end

