-- ==== Sys2Proof/Machine/Step.lean ====
section
/-! DEFINITION. One step of the machine, and the placing of a command where the next step runs it. -/

namespace Sys2Proof.Machine

/-- One atomic transition: the next listed event, or the engine's own turn (20_memory.md R54). -/
def step (s : State) : Host.Outcome State Fault Refusal :=
  match s.events with
  | [] => engineTurn s
  | e :: rest => applyEvent e { s with events := rest }

/-- The machine with the command word of an opcode-table row accepted in its unit's latch and that unit's completion as
the very next event. The engine fetches no instruction (10_state.md R19): a command runs because a host wrote it to a CMD
register, and this stands for that acceptance (log entry 7). -/
def State.withFetchWord (s : State) (nbits w : Nat) : State :=
  let word := BitVec.ofNat 64 (w % 2 ^ nbits)
  let u := homeUnit word
  { latchCommand u word s with events := .complete u :: s.events }

end Sys2Proof.Machine
end

