-- ==== Sys2Proof/Machine/HostAsm.lean ====
section
/-! DEFINITION. The host's side: the assembler (30_encoding.md R70), the host statements that touch the engine (R69) and the
pseudo-instructions (R71), each written as the bus operations it makes. The host's own control flow (labels,
assignments, jumps) "touch no engine state" (R69) and has no term here. -/

namespace Sys2Proof.Machine

/-- A host statement that performs bus operations (30_encoding.md R69). -/
inductive HostStmt where
  /-- `WR REG, v` -/
  | wr (r : Reg) (v : Word)
  /-- `RD REG` -/
  | rd (r : Reg)
  /-- `RDB KEYWIN+i, w` -/
  | rdb (i : BitVec 16) (w : Width)
  /-- `CMD u, <command>` -/
  | cmd (u : UnitId) (c : AsmCommand)
  /-- `WAIT u` -/
  | wait (u : UnitId)
deriving DecidableEq, Repr

/-- The pseudo-instructions (30_encoding.md R71). -/
inductive Pseudo where
  | hmNew (seed : Word) (signed : Bool)
  | hmNewt
  | hmKey (len : Nat)
  | skNew (key : Word)
  | skNewt
  | skNext
  | skRng (min max : Word)
  | dice
  | pwchar (k : Nat)
  | password (k m : Nat)
  | rotl32 (x : Word) (s : Nat)
  | brx64 (x : Word)
deriving DecidableEq, Repr

/-- The command an assembler reads, refused when an operand is outside 0..65535; HM.GEN with no operand takes L = 16
(30_encoding.md R70). -/
def assemble : AsmCommand → Option Instr
  | .hmInit signed => some (.hmInit signed)
  | .hmInitt => some .hmInitt
  | .hmGen none => some (.hmGen 16)
  | .hmGen (some l) => if l ≤ 65535 then some (.hmGen (BitVec.ofNat 16 l)) else none
  | .skInit => some .skInit
  | .skInitt => some .skInitt
  | .skRaw => some .skRaw
  | .skRange => some .skRange
  | .pxRotl s => if s ≤ 65535 then some (.pxRotl (BitVec.ofNat 16 s)) else none
  | .pxBrx => some .pxBrx

/-- The CMD register of a unit (20_memory.md R42). -/
def cmdReg : UnitId → Reg
  | .hm => .hmCmd
  | .sk => .skCmd

/-- The STATUS register of a unit (20_memory.md R42). -/
def statusReg : UnitId → Reg
  | .hm => .hmStatus
  | .sk => .skStatus

/-- What a host does on the bus for one statement (30_encoding.md R69). -/
inductive HostOp where
  /-- one access -/
  | once (e : Event)
  /-- `WAIT u`: read STATUS "until BUSY = 0" (R69, R71) -/
  | poll (host : Nat) (u : UnitId)
deriving DecidableEq, Repr

/-- The bus operation of a statement of host number `host` (30_encoding.md R69); none when the assembler refuses the command
(R70). -/
def stmtOp (host : Nat) : HostStmt → Option HostOp
  | .wr r v => some (.once (.write host (regOffset r) .b8 v))
  | .rd r => some (.once (.read host (regOffset r) .b8))
  | .rdb i w => some (.once (.read host (0x10000 + i.setWidth 17) w))
  | .cmd u c => (assemble c).map fun i => .once (.write host (regOffset (cmdReg u)) .b8 (encode i))
  | .wait u => some (.poll host u)

/-- The bus operations of a program, in its order; none when the assembler refuses one of its commands. -/
def programOps (host : Nat) : List HostStmt → Option (List HostOp)
  | [] => some []
  | st :: rest =>
    match stmtOp host st, programOps host rest with
    | some op, some ops => some (op :: ops)
    | _, _ => none

/-- The access a host makes when it is its turn. -/
def HostOp.event : HostOp → Event
  | .once e => e
  | .poll host u => .read host (regOffset (statusReg u)) .b8

/-- What is left of a program after the access of its first operation, made in state `s`: a poll that read BUSY = 1, bit 0
of the value, is repeated (`if t[0] == 1 goto loop`, 30_encoding.md R71). -/
def opsAfter (op : HostOp) (rest : List HostOp) (s : State) : List HostOp :=
  match op with
  | .once _ => rest
  | .poll _ u => if (memRead s (regOffset (statusReg u)) .b8).getLsbD 0 then op :: rest else rest

/-- Whose transition comes next in the total order of 20_memory.md R54, seen from one host: its own next access, or any
event of another agent, a completion of any unit at any place among them (70_reset_and_hazards.md R132; log entry 21). -/
inductive Turn where
  | host
  | other (e : Event)
deriving DecidableEq, Repr

/-- The events that a host's operations and the other agents' events make in the order of the turns, from state `s`, and what
is left of the program at the end. A finished host does nothing (log entry 21). -/
def programEvents : List Turn → List HostOp → State → List Event × List HostOp
  | [], ops, _ => ([], ops)
  | .other e :: turns, ops, s =>
    match applyEvent e s with
    | .next t => (e :: (programEvents turns ops t).1, (programEvents turns ops t).2)
    | .fault _ => ([e], ops)
    | .refused _ => ([e], ops)
  | .host :: turns, [], s => programEvents turns [] s
  | .host :: turns, op :: rest, s =>
    match applyEvent op.event s with
    | .next t =>
      (op.event :: (programEvents turns (opsAfter op rest s) t).1, (programEvents turns (opsAfter op rest s) t).2)
    | .fault _ => ([op.event], op :: rest)
    | .refused _ => ([op.event], op :: rest)

/-- A ranged sample, `SK.RNG min, max` (30_encoding.md R71). -/
def expandRange (min max : Word) : List HostStmt :=
  [.wr .skMin min, .wr .skMax max, .cmd .sk .skRange, .wait .sk, .rd .skResult]

/-- The expansion column of 30_encoding.md R71. `DICE` and `PWCHAR k` are ranged samples (43_sampling.md R103, R104); the
alphabet lookup is the host's own. DESIGN CHOICE: `k` may be any number, and `k - 1` above 2^64-1, which is no 64-bit
operand (R69, 00_scope.md R12), is taken modulo 2^64 (log entry 24). -/
def expandPseudo : Pseudo → List HostStmt
  | .hmNew seed signed => [.wr .hmSeedIn seed, .cmd .hm (.hmInit signed), .wait .hm]
  | .hmNewt => [.cmd .hm .hmInitt, .wait .hm]
  | .hmKey len =>
    [.cmd .hm (.hmGen (some len)), .wait .hm] ++ (List.range len).map fun i => .rdb (BitVec.ofNat 16 i) .b1
  | .skNew key => [.wr .skKeyIn key, .cmd .sk .skInit, .wait .sk]
  | .skNewt => [.cmd .sk .skInitt, .wait .sk]
  | .skNext => [.cmd .sk .skRaw, .wait .sk, .rd .skResult]
  | .skRng min max => expandRange min max
  | .dice => expandRange 1 6
  | .pwchar k => expandRange 0 (bits64 ((k : Int) - 1))
  | .password k m => (List.replicate m (expandRange 0 (bits64 ((k : Int) - 1)))).flatten
  | .rotl32 x s => [.wr .pxIn x, .cmd .sk (.pxRotl s), .wait .sk, .rd .pxOut]
  | .brx64 x => [.wr .pxIn x, .cmd .sk .pxBrx, .wait .sk, .rd .pxOut]

end Sys2Proof.Machine
end

