-- ==== Sys2Proof/Safety.lean ====
section
/-! DEFINITION. What claims call a consistent and a quiescent machine, and a legal list of events. -/

namespace Sys2Proof.Safety

open Sys2Proof.Machine

/-- "The latch is non-empty exactly when `STATUS.BUSY == 1`" (10_state.md R36), in both units. -/
def LatchMatchesBusy (s : State) : Prop :=
  s.hm.pend.isSome = s.hm.status.busy ∧ s.sk.pend.isSome = s.sk.status.busy

/-- What STATUS says of one unit: "0 while BUSY", DONE from a completion until the next acceptance (10_state.md R31), and no
code above 4 (60_exceptions.md R107). -/
def StatusLegal (st : Status) : Prop :=
  (st.busy = true → st.done = false ∧ st.errcode = 0) ∧ st.errcode.toNat ≤ 4

/-- `raw_key` and the other results "exist so that a host can read the key and recompute every step" (10_state.md R22):
with no key since construction all of them are 0, else they are what HM.GEN computes from HM_SEED, SSIGN, HM_COUNT - 1 and
HM_TIME. -/
def KeyRecomputable (h : Hm) : Prop :=
  if h.keylen = 0 then
    h.count = 0 ∧ h.time = 0 ∧ h.hexlen = 0 ∧ rawKey h = 0
  else
    h.count ≠ 0 ∧ (rawKey h).toNat = genRaw (seedInt h.ssign h.seed) (uint (h.count - 1)) h.time ∧
      h.hexlen.toNat = (hexU (rawKey h).toNat).length

/-- The subkey file is the derivation of SK_MASTER once the unit is constructed (10_state.md R26), and before that the
schedule, the cursor and the result have their reset values (R40). -/
def ScheduleDerived (k : Sk) : Prop :=
  if k.status.init then k.subkey = derive k.master
  else k.master = 0 ∧ k.subkey = Vector.replicate 16 0 ∧ k.cursor = 0 ∧ k.result = 0

/-- Before its construction HM's generator has its reset values (10_state.md R40). -/
def UnconstructedHm (h : Hm) : Prop :=
  h.status.init = false → h.seed = 0 ∧ h.ssign = false ∧ h.count = 0 ∧ h.keylen = 0

/-- Everything above: what holds of the engine in every run from reset. -/
def Consistent (s : State) : Prop :=
  LatchMatchesBusy s ∧ StatusLegal s.hm.status ∧ StatusLegal s.sk.status ∧
    KeyRecomputable s.hm ∧ ScheduleDerived s.sk ∧ UnconstructedHm s.hm

/-- Whether an event is a host's bus access (20_memory.md R47 to R49). -/
def hostAccess : Event → Bool
  | .read _ _ _ => true
  | .write _ _ _ _ => true
  | .complete _ => false
  | .reset => false

/-- Every host has finished its program: no host access is still to come (log entry 22). -/
def HostsFinished (s : State) : Prop := s.events.all (fun e => !hostAccess e) = true

/-- The events that leave the SK unit to one host, "that no other host uses the unit" (30_encoding.md R71): completions of
either unit, reads by other hosts, and writes by other hosts outside the unit's registers (20_memory.md R42). -/
def LeavesSkTo (host : Nat) (e : Event) : Prop :=
  match e with
  | .read h _ _ => h ≠ host
  | .write h o _ _ => h ≠ host ∧ (o.toNat < 0x100 ∨ 0x200 ≤ o.toNat)
  | .complete _ => True
  | .reset => False

/-- Quiescence (70_reset_and_hazards.md R133): both units have BUSY = 0 and every host has finished its program. -/
def Quiescent (s : State) : Prop :=
  s.hm.status.busy = false ∧ s.sk.status.busy = false ∧ HostsFinished s

/-- STATUS of a unit whose command has completed with a code: BUSY 0, DONE 1, the code, OVERRUN as before
(10_state.md R32, R39). -/
def finished (st : Status) (init : Bool) (code : BitVec 4) : Status :=
  { busy := false, done := true, init := init, errcode := code, overrun := st.overrun }

/-- STATUS of a unit. -/
def unitStatus (u : UnitId) (s : State) : Status :=
  match u with
  | .hm => s.hm.status
  | .sk => s.sk.status

/-- The machine after unit `u` completed with a code and wrote nothing else (60_exceptions.md R108, R110). -/
def onlyCompleted (u : UnitId) (code : BitVec 4) (s : State) : State :=
  match u with
  | .hm => { s with hm := { s.hm with pend := none, status := finished s.hm.status s.hm.status.init code } }
  | .sk => { s with sk := { s.sk with pend := none, status := finished s.sk.status s.sk.status.init code } }

/-- What HM's commands write: the generator and the result registers (10_state.md R20 to R22). -/
def hmResults (h : Hm) : Word × Bool × Word × Word × BitVec 16 × BitVec 7 × BitVec 256 :=
  (h.seed, h.ssign, h.count, h.time, h.keylen, h.hexlen, rawKey h)

/-- What SK's commands write: the schedule, the cursor and the results (10_state.md R25 to R30). -/
def skResults (k : Sk) : Word × Vector Word 16 × BitVec 4 × Word × Word :=
  (k.master, k.subkey, k.cursor, k.result, k.pxOut)

/-- The row CUM of the rotation schedule (42_subkey_schedule.md R92). -/
def cumulativeShift : Vector Nat 16 := #v[1, 2, 4, 6, 8, 10, 12, 14, 15, 17, 19, 21, 23, 25, 27, 28]

/-- The 64 bits read the same from both ends (40_primitives.md R77). -/
def Palindrome (v : Word) : Prop := ∀ i, i < 64 → v.getLsbD i = v.getLsbD (63 - i)

/-- `n` raw samples by one host: the command, its completion, the read of SK_RESULT (43_sampling.md R102). -/
def rawSampling (host n : Nat) : List Event :=
  (List.replicate n
    [Event.write host 0x100 .b8 0x13, Event.complete .sk, Event.read host 0x138 .b8]).flatten

/-- Whether a number is that of a host, "1 to N_HOSTS" (60_exceptions.md R120, 00_scope.md R9). -/
def LegalHost (host : Nat) : Prop := 1 ≤ host ∧ host ≤ Config.nHosts

/-- An event of a platform with `Config.nHosts` hosts (60_exceptions.md R120). The engine cannot tell hosts apart, and the
machine takes any host number (log entry 12). -/
def LegalEvent (e : Event) : Prop :=
  match e with
  | .read host _ _ => LegalHost host
  | .write host _ _ _ => LegalHost host
  | .complete _ => True
  | .reset => True

end Sys2Proof.Safety
end

