-- ==== Sys2Proof/Certificates/Slice0/Obligations.lean ====
section
/-! DEFINITION. The statements for the provers. Each cites the rule of spec/ it formalises or rests on. -/

open Sys2Proof Sys2Proof.Machine Sys2Proof.Safety

/-! ## Encoding -/

/-- A word decodes to an instruction exactly when the command is well formed for the unit and the word is its encoding: no
bit of an encoding is dropped and no other word is accepted (30_encoding.md R63, R66). -/
def Obligations.DecodeAcceptsExactlyTheEncodings : Prop :=
  ∀ (u : UnitId) (w : Word) (i : Instr),
    decode u w = .ok i ↔ (Command.wf { unit := u, instr := i } = true ∧ encode i = w)

/-- 30_encoding.md R67: which words are illegal, and that a BUSY unit holding one completes with code 3 and nothing
else. -/
def Obligations.IllegalWordsAreListedAndCompleteWithCodeThree : Prop :=
  (∀ (u : UnitId) (w : Word),
    (∃ e, decode u w = .error e) ↔
      (w.toNat / 2 ^ 32 ≠ 0 ∨
       (u = .hm ∧ w.toNat % 256 ∉ [0x01, 0x02, 0x03]) ∨
       (u = .sk ∧ w.toNat % 256 ∉ [0x11, 0x12, 0x13, 0x14, 0x21, 0x22]) ∨
       (if w.toNat % 256 = 0x01 then w.toNat / 2 ^ 8 % 256 / 2 ≠ 0 else w.toNat / 2 ^ 8 % 256 ≠ 0) ∨
       (w.toNat / 2 ^ 16 % 65536 ≠ 0 ∧ w.toNat % 256 ≠ 0x03 ∧ w.toNat % 256 ≠ 0x21))) ∧
  (∀ (u : UnitId) (w : Word) (e : Illegal) (s : State) (rest : List Event),
    s.events = .complete u :: rest → unitBusy u s = true → latchedWord u s = some w → decode u w = .error e →
      step s = .next (onlyCompleted u 3 { s with events := rest }))

/-- 30_encoding.md R70: the words of the assembler's table, its default length, and what it refuses. -/
def Obligations.AssemblerWordsAreThoseOfTheTable : Prop :=
  encode (.hmInit false) = 0x01 ∧ encode (.hmInit true) = 0x101 ∧ encode .hmInitt = 0x02 ∧
  encode .skInit = 0x11 ∧ encode .skInitt = 0x12 ∧ encode .skRaw = 0x13 ∧ encode .skRange = 0x14 ∧
  encode .pxBrx = 0x22 ∧
  (∀ signed, assemble (.hmInit signed) = some (.hmInit signed)) ∧ assemble .hmInitt = some .hmInitt ∧
  assemble .skInit = some .skInit ∧ assemble .skInitt = some .skInitt ∧ assemble .skRaw = some .skRaw ∧
  assemble .skRange = some .skRange ∧ assemble .pxBrx = some .pxBrx ∧
  (assemble (.hmGen none)).map encode = some 0x100003 ∧
  (∀ l, (assemble (.hmGen (some l))).map (fun i => (encode i).toNat) =
    if l ≤ 65535 then some (0x03 ||| (l <<< 16)) else none) ∧
  (∀ r, (assemble (.pxRotl r)).map (fun i => (encode i).toNat) =
    if r ≤ 65535 then some (0x21 ||| (r <<< 16)) else none)

/-- A few words written out from the fields of 30_encoding.md R62 and R63 decode to their instructions, and the same
opcodes written to the other unit do not. -/
def Obligations.SampleWordsDecode : Prop :=
  decode .hm 0x0000000000000101 = .ok (.hmInit true) ∧ decode .hm 0x0000000000000002 = .ok .hmInitt ∧
  decode .hm 0x00000000FFFF0003 = .ok (.hmGen 65535) ∧ decode .sk 0x0000000000000011 = .ok .skInit ∧
  decode .sk 0x0000000000000014 = .ok .skRange ∧ decode .sk 0x0000000000200021 = .ok (.pxRotl 32) ∧
  decode .sk 0x0000000000000022 = .ok .pxBrx ∧ decode .sk 0x0000000000000001 = .error .opcode ∧
  decode .hm 0x0000000000000013 = .error .opcode

/-! ## Steps -/

/-- When the next event is the completion of a BUSY unit whose latched word decodes to `i`, the step is `exec i`, with that
event taken off the list (10_state.md R39, 30_encoding.md R66). -/
def Obligations.StepRunsTheDecodedCommand : Prop :=
  ∀ (u : UnitId) (w : Word) (i : Instr) (s : State) (rest : List Event),
    s.events = .complete u :: rest → unitBusy u s = true → latchedWord u s = some w → decode u w = .ok i →
      step s = exec i { s with events := rest }

/-- A word of the opcode table placed by `withFetchWord` is accepted in its unit's latch and runs in the very next step
(the model's own interface, log entry 7). -/
def Obligations.FetchedWordRunsInTheNextStep : Prop :=
  ∀ (s : State) (nbits w : Nat) (i : Instr), decodeTableWord nbits w = some i →
    step (s.withFetchWord nbits w) = exec i (latchCommand i.unit (BitVec.ofNat 64 (w % 2 ^ nbits)) s)

/-- 10_state.md R38: acceptance, on an idle and on a BUSY unit. -/
def Obligations.CommandWriteIsAcceptedOrDropped : Prop :=
  ∀ (s : State) (host : Nat) (w : Word) (rest : List Event),
    (s.events = .write host 0x000 .b8 w :: rest →
      step s = .next { s with
        events := rest
        hm := if s.hm.status.busy then { s.hm with status := { s.hm.status with overrun := true } }
          else { s.hm with
            pend := some { cmd := w, seedIn := s.hm.seedIn }
            status := { s.hm.status with busy := true, done := false, errcode := 0 } } }) ∧
    (s.events = .write host 0x100 .b8 w :: rest →
      step s = .next { s with
        events := rest
        sk := if s.sk.status.busy then { s.sk with status := { s.sk.status with overrun := true } }
          else { s.sk with
            pend := some { cmd := w, keyIn := s.sk.keyIn, min := s.sk.min, max := s.sk.max, pxIn := s.sk.pxIn }
            status := { s.sk.status with busy := true, done := false, errcode := 0 } } })

/-- A write to an operand register stores all 64 bits at once, BUSY or not, and leaves the latch as it is
(20_memory.md R49, 70_reset_and_hazards.md R129). -/
def Obligations.OperandWriteStoresTheValue : Prop :=
  ∀ (s : State) (host : Nat) (v : Word) (rest : List Event),
    (s.events = .write host 0x010 .b8 v :: rest →
      step s = .next { s with events := rest, hm := { s.hm with seedIn := v } }) ∧
    (s.events = .write host 0x110 .b8 v :: rest →
      step s = .next { s with events := rest, sk := { s.sk with keyIn := v } }) ∧
    (s.events = .write host 0x128 .b8 v :: rest →
      step s = .next { s with events := rest, sk := { s.sk with min := v } }) ∧
    (s.events = .write host 0x130 .b8 v :: rest →
      step s = .next { s with events := rest, sk := { s.sk with max := v } }) ∧
    (s.events = .write host 0x140 .b8 v :: rest →
      step s = .next { s with events := rest, sk := { s.sk with pxIn := v } })

/-- A write to a STATUS register clears OVERRUN when bit 16 is set and does nothing else (10_state.md R32,
20_memory.md R49). -/
def Obligations.StatusWriteClearsOverrunOnly : Prop :=
  ∀ (s : State) (host : Nat) (v : Word) (rest : List Event),
    (s.events = .write host 0x008 .b8 v :: rest →
      step s = .next { s with
        events := rest
        hm := { s.hm with status := { s.hm.status with
          overrun := if v.toNat / 2 ^ 16 % 2 = 1 then false else s.hm.status.overrun } } }) ∧
    (s.events = .write host 0x108 .b8 v :: rest →
      step s = .next { s with
        events := rest
        sk := { s.sk with status := { s.sk.status with
          overrun := if v.toNat / 2 ^ 16 % 2 = 1 then false else s.sk.status.overrun } } })

/-- Every other write is ignored: narrow, misaligned, to a read-only or reserved offset, or to the key window
(20_memory.md R43, R46, R47). -/
def Obligations.OtherWritesAreIgnored : Prop :=
  ∀ (s : State) (host : Nat) (o : Offset) (width : Width) (v : Word) (rest : List Event),
    s.events = .write host o width v :: rest →
    (width ≠ .b8 ∨ o.toNat ∉ [0x000, 0x008, 0x010, 0x100, 0x108, 0x110, 0x128, 0x130, 0x140]) →
      step s = .next { s with events := rest }

/-- A read gives the host its value and changes nothing of the engine (20_memory.md R48, R51). -/
def Obligations.ReadsHaveNoSideEffect : Prop :=
  ∀ (s : State) (host : Nat) (o : Offset) (width : Width) (rest : List Event),
    s.events = .read host o width :: rest →
      step s = .next { s with
        events := rest
        readLog := s.readLog ++ [{ host := host, off := o, width := width, value := memRead s o width }] }

/-- The values of the register map (20_memory.md R42, R48), and 0 at a command register (R43). -/
def Obligations.RegisterReadsFollowTheMap : Prop :=
  ∀ (s : State),
    memRead s 0x000 .b8 = 0 ∧ memRead s 0x008 .b8 = statusWord s.hm.status s.hm.ssign ∧
    memRead s 0x010 .b8 = s.hm.seedIn ∧ memRead s 0x018 .b8 = s.hm.seed ∧ memRead s 0x020 .b8 = s.hm.count ∧
    memRead s 0x028 .b8 = s.hm.time ∧ (memRead s 0x030 .b8).toNat = s.hm.keylen.toNat ∧
    (memRead s 0x038 .b8).toNat = s.hm.hexlen.toNat ∧ memRead s 0x040 .b8 = s.hm.rawkey0 ∧
    memRead s 0x048 .b8 = s.hm.rawkey1 ∧ memRead s 0x050 .b8 = s.hm.rawkey2 ∧ memRead s 0x058 .b8 = s.hm.rawkey3 ∧
    memRead s 0x100 .b8 = 0 ∧ memRead s 0x108 .b8 = statusWord s.sk.status false ∧
    memRead s 0x110 .b8 = s.sk.keyIn ∧ memRead s 0x118 .b8 = s.sk.master ∧
    (memRead s 0x120 .b8).toNat = s.sk.cursor.toNat ∧ memRead s 0x128 .b8 = s.sk.min ∧
    memRead s 0x130 .b8 = s.sk.max ∧ memRead s 0x138 .b8 = s.sk.result ∧ memRead s 0x140 .b8 = s.sk.pxIn ∧
    memRead s 0x148 .b8 = s.sk.pxOut ∧
    ∀ (i : Fin 16) (o : Offset), o.toNat = 0x180 + 8 * i.val → memRead s o .b8 = s.sk.subkey[i.val]

/-- Every other read of the register region returns 0: narrow, misaligned or reserved (20_memory.md R43, R46). -/
def Obligations.OtherRegisterRegionReadsReturnZero : Prop :=
  ∀ (s : State) (o : Offset) (width : Width), o.toNat < 0x10000 →
    (width ≠ .b8 ∨ o.toNat % 8 ≠ 0 ∨ (0x060 ≤ o.toNat ∧ o.toNat ≤ 0x0F8) ∨
      (0x150 ≤ o.toNat ∧ o.toNat ≤ 0x178) ∨ 0x200 ≤ o.toNat) →
    memRead s o width = 0

/-- The bits of a STATUS register as a host reads it (10_state.md R31). -/
def Obligations.StatusBitsAreThoseOfTheTable : Prop :=
  ∀ (st : Status) (ssign : Bool),
    (statusWord st ssign).getLsbD 0 = st.busy ∧ (statusWord st ssign).getLsbD 1 = st.done ∧
    (statusWord st ssign).getLsbD 2 = decide (st.errcode ≠ 0) ∧ (statusWord st ssign).getLsbD 3 = st.init ∧
    (statusWord st ssign).getLsbD 4 = ssign ∧ (statusWord st ssign).extractLsb' 8 4 = st.errcode ∧
    (statusWord st ssign).getLsbD 16 = st.overrun ∧
    (∀ i, (5 ≤ i ∧ i ≤ 7) ∨ (12 ≤ i ∧ i ≤ 15) ∨ (17 ≤ i ∧ i ≤ 63) → (statusWord st ssign).getLsbD i = false)

/-- Key-window reads (20_memory.md R47): an aligned read holds its characters in little-endian order and nothing above
them, a misaligned one is 0. -/
def Obligations.KeyWindowReadsAreLittleEndianCharacters : Prop :=
  ∀ (s : State) (o : Offset) (width : Width), 0x10000 ≤ o.toNat →
    if o.toNat % width.bytes = 0 then
      (∀ j, j < width.bytes →
        (memRead s o width).extractLsb' (8 * j) 8 = keyByte s.hm (o.toNat - 0x10000 + j)) ∧
      (memRead s o width).toNat < 2 ^ (8 * width.bytes)
    else memRead s o width = 0

/-- With no key (after reset or a construction) the whole key window reads 0 (41_hash_mix.md R90,
70_reset_and_hazards.md R124). -/
def Obligations.KeyWindowReadsZeroWithoutAKey : Prop :=
  ∀ (s : State) (o : Offset) (width : Width), s.hm.keylen = 0 → 0x10000 ≤ o.toNat → memRead s o width = 0

/-! ## Reset -/

/-- 10_state.md R40: the reset value of every piece of the engine's state. -/
def Obligations.ResetValuesAreZeroAndEmpty : Prop :=
  statusWord State.reset.hm.status State.reset.hm.ssign = 0 ∧ statusWord State.reset.sk.status false = 0 ∧
  State.reset.hm.seedIn = 0 ∧ State.reset.hm.seed = 0 ∧ State.reset.hm.count = 0 ∧ State.reset.hm.time = 0 ∧
  State.reset.hm.keylen = 0 ∧ State.reset.hm.hexlen = 0 ∧ State.reset.hm.rawkey0 = 0 ∧
  State.reset.hm.rawkey1 = 0 ∧ State.reset.hm.rawkey2 = 0 ∧ State.reset.hm.rawkey3 = 0 ∧
  State.reset.sk.keyIn = 0 ∧ State.reset.sk.master = 0 ∧ State.reset.sk.cursor = 0 ∧ State.reset.sk.min = 0 ∧
  State.reset.sk.max = 0 ∧ State.reset.sk.result = 0 ∧ State.reset.sk.pxIn = 0 ∧ State.reset.sk.pxOut = 0 ∧
  (∀ i : Fin 16, State.reset.sk.subkey[i.val] = 0) ∧ State.reset.hm.pend = none ∧ State.reset.sk.pend = none

/-- Reset is one transition to the reset values, both latches with it: no draw, and a command not yet completed is
discarded (70_reset_and_hazards.md R123). That the environment's own fields stay is the model's choice (log entry 6). -/
def Obligations.ResetDiscardsEverything : Prop :=
  ∀ (s : State) (rest : List Event), s.events = .reset :: rest →
    step s = .next { s with events := rest, hm := State.reset.hm, sk := State.reset.sk }

/-! ## The commands -/

/-- HM.INIT replaces the generator (41_hash_mix.md R87), with the seed's integer value (10_state.md R20). -/
def Obligations.HmInitConstructsTheGenerator : Prop :=
  (∀ (signed : Bool) (s : State) (p : HmLatch), s.hm.pend = some p →
    exec (.hmInit signed) s = .next { s with hm := { s.hm with
      seed := p.seedIn, ssign := signed, count := 0, time := 0, keylen := 0, hexlen := 0
      rawkey0 := 0, rawkey1 := 0, rawkey2 := 0, rawkey3 := 0
      pend := none, status := finished s.hm.status true 0 } }) ∧
  (∀ x : Word, seedInt true x = (if x.toNat < 2 ^ 63 then (x.toNat : Int) else (x.toNat : Int) - 2 ^ 64) ∧
    seedInt false x = x.toNat)

/-- HM.INITT takes the seed from the time source, whatever value it answers (41_hash_mix.md R88). -/
def Obligations.HmInittDrawsTheSeed : Prop :=
  (∀ (s : State) (p : HmLatch) (t : Word) (later : List Word), s.hm.pend = some p → s.timeFeed = t :: later →
    exec .hmInitt s = .next { s with
      timeFeed := later, drawCount := s.drawCount + 1
      hm := { s.hm with
        seed := t, ssign := false, count := 0, time := 0, keylen := 0, hexlen := 0
        rawkey0 := 0, rawkey1 := 0, rawkey2 := 0, rawkey3 := 0
        pend := none, status := finished s.hm.status true 0 } }) ∧
  (∀ (s : State) (p : HmLatch), s.hm.pend = some p → s.timeFeed = [] →
    exec .hmInitt s = .next { s with
      drawCount := s.drawCount + 1
      hm := { s.hm with
        seed := Config.nowUs s.drawCount, ssign := false, count := 0, time := 0, keylen := 0, hexlen := 0
        rawkey0 := 0, rawkey1 := 0, rawkey2 := 0, rawkey3 := 0
        pend := none, status := finished s.hm.status true 0 } })

/-- HM.GEN's pipeline (41_hash_mix.md R89), on a constructed generator with a positive length and a count below its
limit. -/
def Obligations.HmGenStoresTheKey : Prop :=
  ∀ (len : BitVec 16) (s : State) (p : HmLatch) (raw : Nat),
    s.hm.pend = some p → s.hm.status.init = true → 0 < len.toNat → s.hm.count.toNat < 2 ^ 64 - 1 →
    raw = hashint (dec (avalancheMix (hashint (dec
      (intXor (seedInt s.hm.ssign s.hm.seed) (s.hm.count.toNat * 1000003)))) ^^^ (drawnTime s).toNat : Nat)) →
    exec (.hmGen len) s = .next { s with
      timeFeed := s.timeFeed.tail, drawCount := s.drawCount + 1
      hm := { s.hm with
        rawkey0 := BitVec.ofNat 64 raw, rawkey1 := BitVec.ofNat 64 (raw / 2 ^ 64)
        rawkey2 := BitVec.ofNat 64 (raw / 2 ^ 128), rawkey3 := BitVec.ofNat 64 (raw / 2 ^ 192)
        hexlen := BitVec.ofNat 7 (hexU raw).length, keylen := len, time := drawnTime s
        count := BitVec.ofNat 64 (s.hm.count.toNat + 1)
        pend := none, status := finished s.hm.status true 0 } }

/-- HM.GEN's errors in their order, none of which draws or writes anything but STATUS (41_hash_mix.md R89,
60_exceptions.md R109). -/
def Obligations.HmGenErrorsInOrder : Prop :=
  ∀ (len : BitVec 16) (s : State) (p : HmLatch), s.hm.pend = some p →
    (s.hm.status.init = false → exec (.hmGen len) s = .next (onlyCompleted .hm 2 s)) ∧
    (s.hm.status.init = true → len.toNat = 0 → exec (.hmGen len) s = .next (onlyCompleted .hm 1 s)) ∧
    (s.hm.status.init = true → len.toNat ≠ 0 → s.hm.count.toNat = 2 ^ 64 - 1 →
      exec (.hmGen len) s = .next (onlyCompleted .hm 4 s))

/-- SK.INIT derives the schedule of the given key (42_subkey_schedule.md R97). -/
def Obligations.SkInitDerivesTheSchedule : Prop :=
  ∀ (s : State) (p : SkLatch), s.sk.pend = some p →
    exec .skInit s = .next { s with sk := { s.sk with
      master := p.keyIn, subkey := derive p.keyIn, cursor := 0, result := 0
      pend := none, status := finished s.sk.status true 0 } }

/-- SK.INITT derives the schedule of the drawn time in milliseconds (42_subkey_schedule.md R98). -/
def Obligations.SkInittDerivesFromTheTime : Prop :=
  (∀ (s : State) (p : SkLatch) (t : Word) (later : List Word), s.sk.pend = some p → s.timeFeed = t :: later →
    exec .skInitt s = .next { s with
      timeFeed := later, drawCount := s.drawCount + 1
      sk := { s.sk with
        master := BitVec.ofNat 64 (t.toNat / 1000), subkey := derive (BitVec.ofNat 64 (t.toNat / 1000))
        cursor := 0, result := 0, pend := none, status := finished s.sk.status true 0 } }) ∧
  (∀ (s : State) (p : SkLatch), s.sk.pend = some p → s.timeFeed = [] →
    exec .skInitt s = .next { s with
      drawCount := s.drawCount + 1
      sk := { s.sk with
        master := BitVec.ofNat 64 ((Config.nowUs s.drawCount).toNat / 1000)
        subkey := derive (BitVec.ofNat 64 ((Config.nowUs s.drawCount).toNat / 1000))
        cursor := 0, result := 0, pend := none, status := finished s.sk.status true 0 } })

/-- SK.RAW permutes the subkey at the cursor before the advance (43_sampling.md R99, R101); on an unconstructed unit it
only posts NOT_INITIALISED. -/
def Obligations.SkRawConsumesOneSubkey : Prop :=
  ∀ (s : State) (p : SkLatch), s.sk.pend = some p →
    (s.sk.status.init = true →
      exec .skRaw s = .next { s with sk := { s.sk with
        cursor := BitVec.ofNat 4 ((s.sk.cursor.toNat + 1) % 16), result := brx64 (subkeyAt s.sk s.sk.cursor)
        pend := none, status := finished s.sk.status true 0 } }) ∧
    (s.sk.status.init = false → exec .skRaw s = .next (onlyCompleted .sk 2 s))

/-- SK.RANGE samples exactly between its signed bounds (43_sampling.md R100), with its errors in their order. -/
def Obligations.SkRangeSamplesExactly : Prop :=
  ∀ (s : State) (p : SkLatch), s.sk.pend = some p →
    (s.sk.status.init = true → p.min.toInt ≤ p.max.toInt →
      exec .skRange s = .next { s with sk := { s.sk with
        cursor := BitVec.ofNat 4 ((s.sk.cursor.toNat + 1) % 16)
        result := BitVec.ofInt 64 (p.min.toInt +
          ((brx64 (subkeyAt s.sk s.sk.cursor)).toNat : Int) % (p.max.toInt - p.min.toInt + 1))
        pend := none, status := finished s.sk.status true 0 } }) ∧
    (s.sk.status.init = false → exec .skRange s = .next (onlyCompleted .sk 2 s)) ∧
    (s.sk.status.init = true → p.max.toInt < p.min.toInt → exec .skRange s = .next (onlyCompleted .sk 1 s))

/-- PX.ROTL rotates the low half of its operand, on a constructed unit or not (44_pipeline_diag.md R105); the result's
bits are those of the rotation and its upper half is 0, and SHAMT above 32 only posts INVALID_ARGUMENT. -/
def Obligations.PxRotlRotatesTheLowHalf : Prop :=
  ∀ (shamt : BitVec 16) (s : State) (p : SkLatch), s.sk.pend = some p →
    (shamt.toNat ≤ 32 → ∃ out : Word,
      exec (.pxRotl shamt) s = .next { s with sk := { s.sk with
        pxOut := out, pend := none, status := finished s.sk.status s.sk.status.init 0 } } ∧
      (∀ i, i < 32 → out.getLsbD i = p.pxIn.getLsbD ((i + 32 - shamt.toNat) % 32)) ∧ out.toNat < 2 ^ 32) ∧
    (32 < shamt.toNat → exec (.pxRotl shamt) s = .next (onlyCompleted .sk 1 s))

/-- PX.BRX writes the bit-reverse-XOR of its operand, on a constructed unit or not (44_pipeline_diag.md R106). -/
def Obligations.PxBrxPermutesTheOperand : Prop :=
  ∀ (s : State) (p : SkLatch), s.sk.pend = some p → ∃ out : Word,
    exec .pxBrx s = .next { s with sk := { s.sk with
      pxOut := out, pend := none, status := finished s.sk.status s.sk.status.init 0 } } ∧
    (∀ i, i < 64 → out.getLsbD i = (p.pxIn.getLsbD i ^^ p.pxIn.getLsbD (63 - i)))

/-! ## Errors, draws and the two units -/

/-- 60_exceptions.md R108: a command that completes with a nonzero code has written nothing but the completion fields of
STATUS (and the completion step has emptied the latch, 10_state.md R39). -/
def Obligations.ErrorsChangeNothingButStatus : Prop :=
  ∀ (u : UnitId) (s t : State), unitBusy u s = true → completion u s = .next t → (unitStatus u t).errcode ≠ 0 →
    t = onlyCompleted u (unitStatus u t).errcode s ∧ errFlag (unitStatus u t) = true

/-- A command of one unit leaves the other unit, the events and the hosts' readings as they are (00_scope.md R4,
60_exceptions.md R120). -/
def Obligations.CommandsLeaveTheOtherUnitAlone : Prop :=
  ∀ (i : Instr) (s t : State), exec i s = .next t →
    (i.unit = .hm → t.sk = s.sk) ∧ (i.unit = .sk → t.hm = s.hm) ∧
    t.events = s.events ∧ t.readLog = s.readLog ∧ t.turnCount = s.turnCount

/-- What a command of one unit does is independent of the other unit (00_scope.md R4). -/
def Obligations.CommandsIgnoreTheOtherUnit : Prop :=
  (∀ (i : Instr) (s t : State) (k : Sk), i.unit = .hm → exec i s = .next t →
    exec i { s with sk := k } = .next { t with sk := k }) ∧
  (∀ (i : Instr) (s t : State) (h : Hm), i.unit = .sk → exec i s = .next t →
    exec i { s with hm := h } = .next { t with hm := h })

/-- The completions of the two units commute (60_exceptions.md R120), unless both draw a time, where the order decides
which of two free values each unit takes. -/
def Obligations.CompletionsOfTheUnitsCommute : Prop :=
  ∀ (s a b : State), completion .hm s = .next a → completion .sk s = .next b →
    (a.drawCount = s.drawCount ∨ b.drawCount = s.drawCount) →
    ∃ t, completion .sk a = .next t ∧ completion .hm b = .next t

/-- A time value is drawn only in HM.INITT, HM.GEN and SK.INITT, one at a time, and not by a command that errs
(60_exceptions.md R116, 41_hash_mix.md R89). -/
def Obligations.OnlyThreeCommandsDraw : Prop :=
  ∀ (s t : State), step s = .next t →
    (t.drawCount = s.drawCount ∧ t.timeFeed = s.timeFeed) ∨
    (∃ (u : UnitId) (w : Word) (i : Instr), unitBusy u s = true ∧ latchedWord u s = some w ∧ decode u w = .ok i ∧
      (i = .hmInitt ∨ i = .skInitt ∨ ∃ len, i = .hmGen len) ∧ unitStatus u t = finished (unitStatus u s) true 0 ∧
      t.drawCount = s.drawCount + 1 ∧ t.timeFeed = s.timeFeed.tail)

/-! ## Invariants and whole-machine rules -/

/-- The machine is consistent right after reset. -/
def Obligations.ResetIsConsistent : Prop := Consistent State.reset

/-- Every step keeps the machine consistent: latches match BUSY (10_state.md R36), STATUS is legal (R31, 60_exceptions.md
R107), the key can be recomputed from the result registers (10_state.md R22), the subkey file is the derivation of the
master key (R26), and an unconstructed unit holds its reset values (R40). -/
def Obligations.EveryStepKeepsConsistency : Prop :=
  ∀ (s t : State), Consistent s → step s = .next t → Consistent t

/-- No step of a machine whose latches match BUSY stops: no fault and no refusal, whatever the hosts do
(93_implementation_defined.md; 60_exceptions.md R110). -/
def Obligations.ConsistentMachineNeverStops : Prop :=
  ∀ (s : State), LatchMatchesBusy s → ∃ t, step s = .next t

/-- INIT "is cleared only by reset" (10_state.md R32). -/
def Obligations.InitIsClearedOnlyByReset : Prop :=
  ∀ (u : UnitId) (s t : State), step s = .next t → (unitStatus u s).init = true → (unitStatus u t).init = false →
    ∃ rest, s.events = .reset :: rest

/-- OVERRUN is sticky: only reset or a host write with bit 16 set to that STATUS offset clears it, and only a command
write dropped by a BUSY unit sets it (10_state.md R32, R38). -/
def Obligations.OverrunChangesOnlyByItsRules : Prop :=
  ∀ (u : UnitId) (s t : State), step s = .next t →
    ((unitStatus u s).overrun = true → (unitStatus u t).overrun = false →
      (∃ rest, s.events = .reset :: rest) ∨
      ∃ host v rest, s.events = .write host (regOffset (statusReg u)) .b8 v :: rest ∧ v.getLsbD 16 = true) ∧
    ((unitStatus u s).overrun = false → (unitStatus u t).overrun = true →
      (unitStatus u s).busy = true ∧ ∃ host v rest, s.events = .write host (regOffset (cmdReg u)) .b8 v :: rest)

/-- Results change only by reset or by a completion with code OK: while a unit is BUSY, and after a command that erred,
they are those of the last successful command (70_reset_and_hazards.md R128, 10_state.md R20 to R30). -/
def Obligations.ResultsChangeOnlyAtSuccessfulCompletion : Prop :=
  ∀ (s t : State), step s = .next t →
    (hmResults t.hm = hmResults s.hm ∨ (∃ rest, s.events = .reset :: rest) ∨
      (s.hm.status.busy = true ∧ t.hm.status = finished s.hm.status true 0)) ∧
    (skResults t.sk = skResults s.sk ∨ (∃ rest, s.events = .reset :: rest) ∨
      (s.sk.status.busy = true ∧ t.sk.status = finished s.sk.status t.sk.status.init 0))

/-- HM_COUNT never wraps: it moves only by reset and by a construction, which make it 0, and by an HM.GEN that completes
with OK, which adds 1 to a count below 2^64-1 (10_state.md R21, 41_hash_mix.md R89). -/
def Obligations.CallCountNeverWraps : Prop :=
  ∀ (s t : State), step s = .next t →
    t.hm.count = s.hm.count ∨ ((∃ rest, s.events = .reset :: rest) ∧ t.hm.count = 0) ∨
    (∃ (w : Word) (i : Instr), s.hm.status.busy = true ∧ latchedWord .hm s = some w ∧ decode .hm w = .ok i ∧
      t.hm.status = finished s.hm.status true 0 ∧
      (((i = .hmInitt ∨ ∃ signed, i = .hmInit signed) ∧ t.hm.count = 0) ∨
       ((∃ len, i = .hmGen len) ∧ s.hm.count.toNat < 2 ^ 64 - 1 ∧ t.hm.count.toNat = s.hm.count.toNat + 1)))

/-- The round cursor moves only by reset, by a construction, which sets it to 0, and by a consuming command that completes
with OK, which advances it by 1 modulo 16 (10_state.md R27, 43_sampling.md R102). -/
def Obligations.CursorIsACyclicCounter : Prop :=
  ∀ (s t : State), step s = .next t →
    t.sk.cursor = s.sk.cursor ∨ (∃ rest, s.events = .reset :: rest) ∨
    (∃ (w : Word) (i : Instr), s.sk.status.busy = true ∧ latchedWord .sk s = some w ∧ decode .sk w = .ok i ∧
      t.sk.status = finished s.sk.status true 0 ∧
      (((i = .skInit ∨ i = .skInitt) ∧ t.sk.cursor = 0) ∨
       ((i = .skRaw ∨ i = .skRange) ∧ t.sk.cursor.toNat = (s.sk.cursor.toNat + 1) % 16)))

/-- `n` raw samples of a constructed unit read the subkeys round-robin from the cursor on, each permuted, and leave the
schedule as it is: the sequence has period 16 (43_sampling.md R102 (b), (e)). -/
def Obligations.RawSamplingReadsTheScheduleRoundRobin : Prop :=
  ∀ (host n : Nat) (s : State), s.events = rawSampling host n → s.sk.status.busy = false →
    s.sk.status.init = true →
    ∃ t : State, Host.Core.run core (3 * n) s = .next t ∧ t.events = [] ∧ t.sk.subkey = s.sk.subkey ∧
      t.sk.cursor.toNat = (s.sk.cursor.toNat + n) % 16 ∧
      t.readLog.map Reading.value = s.readLog.map Reading.value ++
        (List.range n).map fun k => brx64 (subkeyAt s.sk (BitVec.ofNat 4 (s.sk.cursor.toNat + k)))

/-- At cursor 0 a consistent constructed unit's raw value is 0, so SK.RAW returns 0 and SK.RANGE its minimum
(43_sampling.md R102 (c)). -/
def Obligations.RawValueAtCursorZeroIsZero : Prop :=
  ∀ (s : State) (p : SkLatch), Consistent s → s.sk.status.init = true → s.sk.cursor = 0 → s.sk.pend = some p →
    (∃ t, exec .skRaw s = .next t ∧ t.sk.result = 0) ∧
    (p.min.toInt ≤ p.max.toInt → ∃ t, exec .skRange s = .next t ∧ t.sk.result = p.min)

/-- A ranged sample that completes with OK lies between its bounds (43_sampling.md R102 (d)). -/
def Obligations.RangeResultIsInRange : Prop :=
  ∀ (s : State) (p : SkLatch), s.sk.pend = some p → s.sk.status.init = true → p.min.toInt ≤ p.max.toInt →
    ∃ t, exec .skRange s = .next t ∧ p.min.toInt ≤ t.sk.result.toInt ∧ t.sk.result.toInt ≤ p.max.toInt

/-- The DICE pseudo-instruction run by a host that has the SK unit to itself (43_sampling.md R103, 30_encoding.md R69, R71):
in whatever order its accesses, completions and the other hosts' accesses come, once the program is finished the host's last
reading is `1 + (brx64(SUBKEY[c]) mod 6)` and one subkey is consumed; and the program is finished after any number of polls
before the completion. The turns are log entry 21, and what it is to leave SK to a host is log entry 23. -/
def Obligations.DiceProgramReadsOneToSix : Prop :=
  (∀ (host : Nat) (turns : List Turn) (s : State) (ops : List HostOp) (es : List Event),
    programOps host (expandPseudo .dice) = some ops →
    (∀ e, Turn.other e ∈ turns → LeavesSkTo host e) →
    LatchMatchesBusy s → s.sk.status.busy = false → s.sk.status.init = true →
    programEvents turns ops s = (es, []) → s.events = es →
    ∃ t : State, Host.Core.run core es.length s = .next t ∧ t.events = [] ∧
      (t.readLog.filter fun r => r.host = host).getLast? = some {
        host := host, off := 0x138, width := .b8
        value := BitVec.ofNat 64 (1 + (brx64 (subkeyAt s.sk s.sk.cursor)).toNat % 6) } ∧
      t.sk.cursor.toNat = (s.sk.cursor.toNat + 1) % 16 ∧
      ((∀ e, Turn.other e ∈ turns → e = .complete .sk) → t.hm = s.hm)) ∧
  (∀ (host polls : Nat) (s : State) (ops : List HostOp),
    programOps host (expandPseudo .dice) = some ops →
    LatchMatchesBusy s → s.sk.status.busy = false → s.sk.status.init = true →
    (programEvents (List.replicate (3 + polls) .host ++ [.other (.complete .sk), .host, .host]) ops s).2 = [])

/-- With no event listed, the machine is quiescent, and still lists none, after two turns of the engine
(70_reset_and_hazards.md R132, R133; the turns are the model's own, log entry 2). -/
def Obligations.EngineIsQuiescentInTwoTurns : Prop :=
  ∀ (s : State), LatchMatchesBusy s → s.events = [] →
    ∃ t : State, Host.Core.run core 2 s = .next t ∧ Quiescent t ∧ t.events = []

/-! ## The datapath -/

/-- Bit i of `a XOR b` is `a[i] xor b[i]` for every i, with bit i of an integer v the number `floor(v / 2^i) mod 2`
(40_primitives.md R72, 00_scope.md R11); the result is negative exactly when one operand is, and the four lines of the
closed form hold. -/
def Obligations.IntegerXorIsBitwise : Prop :=
  (∀ (a b : Int),
    (∀ i : Nat, intXor a b / 2 ^ i % 2 = (a / 2 ^ i % 2 + b / 2 ^ i % 2) % 2) ∧
    (intXor a b < 0 ↔ ¬(a < 0 ↔ b < 0))) ∧
  (∀ (m n : Nat),
    intXor (m : Int) (n : Int) = ((m ^^^ n : Nat) : Int) ∧
    intXor (-(m : Int) - 1) (n : Int) = -(((m ^^^ n : Nat) : Int) + 1) ∧
    intXor (m : Int) (-(n : Int) - 1) = -(((m ^^^ n : Nat) : Int) + 1) ∧
    intXor (-(m : Int) - 1) (-(n : Int) - 1) = ((m ^^^ n : Nat) : Int))

/-- A rotation by s in 0..32 is the formula of 40_primitives.md R74 on numbers, and moves bit i to bit (i + s) mod 32; by 0
and by 32 it moves nothing. -/
def Obligations.RotationMovesEveryBit : Prop :=
  ∀ (x : Half),
    (∀ s : Nat, s ≤ 32 →
      (rotl32 x s).toNat = ((x.toNat <<< s) ||| (x.toNat >>> (32 - s))) &&& 0xFFFFFFFF ∧
      ∀ i, i < 32 → (rotl32 x s).getLsbD ((i + s) % 32) = x.getLsbD i) ∧
    rotl32 x 0 = x ∧ rotl32 x 32 = x

/-- 40_primitives.md R75: bit 63 - i of `rev64(v)` is bit i of v. -/
def Obligations.BitReversalMirrorsEveryBit : Prop :=
  ∀ (v : Word) (i : Nat), i < 64 → (rev64 v).getLsbD (63 - i) = v.getLsbD i

/-- 40_primitives.md R77, (a) to (f). -/
def Obligations.BitReverseXorGivesPalindromes : Prop :=
  brx64 0 = 0 ∧ brx64 0xFFFFFFFFFFFFFFFF = 0 ∧ brx64 0x8000000000000001 = 0 ∧
  ∀ v : Word, rev64 (rev64 v) = v ∧ rev64 (brx64 v) = brx64 v ∧ Palindrome (brx64 v) ∧ brx64 (brx64 v) = 0 ∧
    (brx64 v = 0 ↔ Palindrome v) ∧
    (∀ i, i < 32 → ((brx64 v).extractLsb' 32 32).getLsbD i = ((brx64 v).extractLsb' 0 32).getLsbD (31 - i)) ∧
    (∀ v' : Word, (brx64 v).extractLsb' 0 32 = (brx64 v').extractLsb' 0 32 → brx64 v = brx64 v')

/-- 40_primitives.md R79: the values, the bound and the injectivity of the avalanche mix. -/
def Obligations.AvalancheMixIsInjective : Prop :=
  avalancheMix 0 = 0 ∧ avalancheMix 1 = 0x81 ∧ (∀ v, v < 2 ^ 256 → avalancheMix v < 2 ^ 263) ∧
  (∀ v v', avalancheMix v = avalancheMix v' → v = v')

/-- 40_primitives.md R80: the width of every value of HM.GEN. -/
def Obligations.KeyPipelineStaysInItsWidths : Prop :=
  ∀ (ssign : Bool) (seed t : Word) (count : Nat), count ≤ 2 ^ 64 - 2 →
    (-2 ^ 63 ≤ seedInt ssign seed ∧ seedInt ssign seed ≤ 2 ^ 64 - 1) ∧
    (count * 1000003 ≤ (2 ^ 64 - 2) * 1000003 ∧ count * 1000003 < 2 ^ 84) ∧
    (-2 ^ 84 ≤ genStart (seedInt ssign seed) count ∧ genStart (seedInt ssign seed) count < 2 ^ 84) ∧
    (1 ≤ (dec (genStart (seedInt ssign seed) count)).length ∧
      (dec (genStart (seedInt ssign seed) count)).length ≤ 27) ∧
    genHashed (seedInt ssign seed) count < 2 ^ 256 ∧ genMixed (seedInt ssign seed) count < 2 ^ 263 ∧
    t.toNat < 2 ^ 64 ∧ genCombined (seedInt ssign seed) count t < 2 ^ 263 ∧
    (1 ≤ (dec (genCombined (seedInt ssign seed) count t)).length ∧
      (dec (genCombined (seedInt ssign seed) count t)).length ≤ 80) ∧
    genRaw (seedInt ssign seed) count t < 2 ^ 256 ∧
    (1 ≤ (hexU (genRaw (seedInt ssign seed) count t)).length ∧
      (hexU (genRaw (seedInt ssign seed) count t)).length ≤ 64)

/-- 40_primitives.md R81: the decimal text of an integer. -/
def Obligations.DecimalTextReadsBack : Prop :=
  dec 0 = [0x30#8] ∧
  (∀ n : Nat, 0 < n → ∃ ds : List Nat,
    dec n = ds.map (fun d => BitVec.ofNat 8 (0x30 + d)) ∧ (∀ d ∈ ds, d < 10) ∧
    (∃ d rest, ds = d :: rest ∧ d ≠ 0) ∧ ds.foldl (fun a d => a * 10 + d) 0 = n) ∧
  (∀ n : Nat, 0 < n → dec (-(n : Int)) = 0x2D#8 :: dec n)

/-- 40_primitives.md R82: the uppercase hexadecimal text of a number and its length. -/
def Obligations.HexTextReadsBack : Prop :=
  hexU 0 = [0x30#8] ∧
  (∀ n : Nat, 0 < n → ∃ ds : List Nat,
    hexU n = ds.map (fun d => if d ≤ 9 then BitVec.ofNat 8 (0x30 + d) else BitVec.ofNat 8 (0x41 + d - 10)) ∧
    (∀ d ∈ ds, d < 16) ∧ (∃ d rest, ds = d :: rest ∧ d ≠ 0) ∧ ds.foldl (fun a d => a * 16 + d) 0 = n) ∧
  (∀ n : Nat, 0 < n → (hexU n).length = 1 + Nat.log 16 n) ∧
  (∀ n : Nat, n < 2 ^ 256 → ((hexU n).length = 64 ↔ 2 ^ 252 ≤ n))

/-- 40_primitives.md R85: `hashint(s)` is the sum of D[j] * 256^(31-j) over the 32 digest bytes, below 2^256. -/
def Obligations.HashIntegerIsTheBigEndianDigest : Prop :=
  ∀ m : List Byte, (sha256 m).length = 32 ∧
    hashint m = ((List.range 32).map fun j => ((sha256 m).getD j 0).toNat * 256 ^ (31 - j)).sum ∧
    hashint m < 2 ^ 256

/-- The padded message is the message, 0x80, zeros and the 64-bit length, in whole blocks: one for at most 55 bytes, two
for 56 to 80 (40_primitives.md R83, R86). That a bit length of 2^64 or more is taken modulo 2^64 is the model's choice (log
entry 25). -/
def Obligations.ShaPaddingFillsWholeBlocks : Prop :=
  ∀ m : List Byte,
    (shaPad m).length % 64 = 0 ∧ (∃ z, shaPad m = m ++ [0x80#8] ++ List.replicate z 0#8 ++ bytesOfLength (8 * m.length)) ∧
    (m.length ≤ 55 → (shaPad m).length = 64) ∧ (56 ≤ m.length → m.length ≤ 80 → (shaPad m).length = 128)

/-- 42_subkey_schedule.md R94: the closed form of the derivation, every CUM[r] below 32, and the composition of
rotations. -/
def Obligations.DerivationHasTheClosedForm : Prop :=
  (∀ (mk : Word) (r : Fin 16),
    (derive mk)[r.val] =
      brx64 (rotl32 (mk.extractLsb' 32 32) (cumulativeShift[r.val] % 32) ++
        rotl32 (mk.extractLsb' 0 32) (cumulativeShift[r.val] % 32) : BitVec 64) + BitVec.ofNat 64 (12345 * r.val)) ∧
  (∀ r : Fin 16, cumulativeShift[r.val] = ((List.range (r.val + 1)).map roundShift).sum ∧ cumulativeShift[r.val] < 32) ∧
  (∀ (x : Half) (a b : Nat), a + b < 32 → rotl32 (rotl32 x a) b = rotl32 x (a + b))

/-- 42_subkey_schedule.md R95, (a) to (c): palindromic rounds, the degenerate keys, the zero at cursor 0, and that the
derivation is not injective. -/
def Obligations.DerivationCornerCases : Prop :=
  (∀ (mk : Word) (r : Fin 16),
    Palindrome (rotl32 (mk.extractLsb' 32 32) cumulativeShift[r.val] ++
      rotl32 (mk.extractLsb' 0 32) cumulativeShift[r.val] : BitVec 64) →
    (derive mk)[r.val] = BitVec.ofNat 64 (12345 * r.val)) ∧
  (∀ r : Fin 16, (derive 0)[r.val] = BitVec.ofNat 64 (12345 * r.val) ∧
    (derive 0xFFFFFFFFFFFFFFFF)[r.val] = BitVec.ofNat 64 (12345 * r.val)) ∧
  (∀ mk : Word, Palindrome (derive mk)[0] ∧ brx64 (derive mk)[0] = 0) ∧
  (∃ mk mk' : Word, mk ≠ mk' ∧ derive mk = derive mk')

/-- 41_hash_mix.md R91: after an HM.GEN that completes with OK, (a) exactly L key-window bytes are nonzero, each an
uppercase hexadecimal digit, and they are the repeated text of the raw key (R90), (b) the count is one more, and (c) the
next start differs. -/
def Obligations.SuccessfulGenerationProperties : Prop :=
  (∀ (len : BitVec 16) (s t : State), exec (.hmGen len) s = .next t → t.hm.status.errcode = 0 →
    (∀ (i : Nat) (o : Offset), o.toNat = 0x10000 + i →
      (i < len.toNat →
        ((0x30 ≤ (memRead t o .b1).toNat ∧ (memRead t o .b1).toNat ≤ 0x39) ∨
         (0x41 ≤ (memRead t o .b1).toNat ∧ (memRead t o .b1).toNat ≤ 0x46)) ∧
        ∃ hex : List Byte,
          hex = hexU (genRaw (seedInt s.hm.ssign s.hm.seed) s.hm.count.toNat (drawnTime s)) ∧
          hex[i % hex.length]?.map BitVec.toNat = some (memRead t o .b1).toNat) ∧
      (len.toNat ≤ i → memRead t o .b1 = 0)) ∧
    t.hm.keylen = len ∧ t.hm.count.toNat = s.hm.count.toNat + 1) ∧
  (∀ (seed : Int) (count : Nat), genStart seed count ≠ genStart seed (count + 1))
end

