-- ==== Sys2Proof/Laws/Decode.lean ====
section
/-! SUPPORT. What each encoding form accepts, and the fields of a word as numbers. -/

namespace Sys2Proof.Laws

/-- A plain command is accepted exactly when SUB and IMM16 are 0. -/
@[simp] theorem plainForm_eq_ok (sub : BitVec 8) (imm : BitVec 16) (i j : Instr) :
    plainForm sub imm i = .ok j ↔ sub = 0 ∧ imm = 0 ∧ i = j := by
  unfold plainForm
  split <;> [simp_all; (split <;> simp_all)]

/-- A plain command is refused exactly when SUB or IMM16 is nonzero. -/
@[simp] theorem plainForm_isError (sub : BitVec 8) (imm : BitVec 16) (i : Instr) :
    (∃ e, plainForm sub imm i = .error e) ↔ sub ≠ 0 ∨ imm ≠ 0 := by
  unfold plainForm
  split <;> [simp_all; (split <;> simp_all)]

/-- HM.INIT is accepted exactly when the reserved SUB bits and IMM16 are 0. -/
@[simp] theorem initForm_eq_ok (sub : BitVec 8) (imm : BitVec 16) (j : Instr) :
    initForm sub imm = .ok j ↔ sub.extractLsb' 1 7 = 0 ∧ imm = 0 ∧ .hmInit (sub.getLsbD 0) = j := by
  unfold initForm
  split <;> [simp_all; (split <;> simp_all)]

/-- HM.INIT is refused exactly when a reserved SUB bit or IMM16 is nonzero. -/
@[simp] theorem initForm_isError (sub : BitVec 8) (imm : BitVec 16) :
    (∃ e, initForm sub imm = .error e) ↔ sub.extractLsb' 1 7 ≠ 0 ∨ imm ≠ 0 := by
  unfold initForm
  split <;> [simp_all; (split <;> simp_all)]

/-- A command with an immediate is accepted exactly when SUB is 0. -/
@[simp] theorem immForm_eq_ok (sub : BitVec 8) (i j : Instr) : immForm sub i = .ok j ↔ sub = 0 ∧ i = j := by
  unfold immForm
  split <;> simp_all

/-- A command with an immediate is refused exactly when SUB is nonzero. -/
@[simp] theorem immForm_isError (sub : BitVec 8) (i : Instr) : (∃ e, immForm sub i = .error e) ↔ sub ≠ 0 := by
  unfold immForm
  split <;> simp_all

/-- The fields of a word as numbers (30_encoding.md R62). -/
theorem field_toNat (w : Word) :
    (opField w).toNat = w.toNat % 2 ^ 8 ∧ (subField w).toNat = w.toNat / 2 ^ 8 % 2 ^ 8 ∧
    (immField w).toNat = w.toNat / 2 ^ 16 % 2 ^ 16 ∧ (rsvField w).toNat = w.toNat / 2 ^ 32 := by
  have h := w.isLt
  refine ⟨?_, ?_, ?_, ?_⟩
  · simp [opField, BitVec.extractLsb'_toNat]
  · simp [subField, BitVec.extractLsb'_toNat, Nat.shiftRight_eq_div_pow]
  · simp [immField, BitVec.extractLsb'_toNat, Nat.shiftRight_eq_div_pow]
  · simp only [rsvField, BitVec.extractLsb'_toNat, Nat.shiftRight_eq_div_pow]
    omega

/-- A word is its four fields. -/
theorem word_eq_fields (w : Word) : w = (rsvField w ++ immField w ++ subField w ++ opField w : BitVec 64) := by
  unfold rsvField opField subField immField
  apply BitVec.eq_of_getLsbD_eq
  intro k hk
  simp only [BitVec.getLsbD_extractLsb', BitVec.getLsbD_append]
  interval_cases k <;> simp

/-- The fields of an encoding (30_encoding.md R62). -/
theorem encode_fields (i : Instr) :
    rsvField (encode i) = 0 ∧ immField (encode i) = immOf i ∧ subField (encode i) = subOf i ∧
    opField (encode i) = opcodeOf i := by
  unfold rsvField opField subField immField encode
  refine ⟨?_, ?_, ?_, ?_⟩ <;>
  · apply BitVec.eq_of_getLsbD_eq
    intro k hk
    simp only [BitVec.getLsbD_extractLsb', BitVec.getLsbD_append]
    interval_cases k <;> simp

end Sys2Proof.Laws
end

