-- ==== Sys2Proof/Laws/State.lean ====
section
/-! SUPPORT. One lemma per field per update of the state and of STATUS, each true by definition. -/

namespace Sys2Proof.Laws

open Sys2Proof.Machine

@[simp] theorem withHm_hm (s : State) (h : Hm) : (s.withHm h).hm = h := rfl
@[simp] theorem withHm_sk (s : State) (h : Hm) : (s.withHm h).sk = s.sk := rfl
@[simp] theorem withHm_events (s : State) (h : Hm) : (s.withHm h).events = s.events := rfl
@[simp] theorem withHm_timeFeed (s : State) (h : Hm) : (s.withHm h).timeFeed = s.timeFeed := rfl
@[simp] theorem withHm_drawCount (s : State) (h : Hm) : (s.withHm h).drawCount = s.drawCount := rfl
@[simp] theorem withHm_turnCount (s : State) (h : Hm) : (s.withHm h).turnCount = s.turnCount := rfl
@[simp] theorem withHm_readLog (s : State) (h : Hm) : (s.withHm h).readLog = s.readLog := rfl
@[simp] theorem withHm_withHm (s : State) (h h' : Hm) : (s.withHm h).withHm h' = s.withHm h' := rfl
@[simp] theorem withHm_self (s : State) : s.withHm s.hm = s := rfl

@[simp] theorem withSk_hm (s : State) (k : Sk) : (s.withSk k).hm = s.hm := rfl
@[simp] theorem withSk_sk (s : State) (k : Sk) : (s.withSk k).sk = k := rfl
@[simp] theorem withSk_events (s : State) (k : Sk) : (s.withSk k).events = s.events := rfl
@[simp] theorem withSk_timeFeed (s : State) (k : Sk) : (s.withSk k).timeFeed = s.timeFeed := rfl
@[simp] theorem withSk_drawCount (s : State) (k : Sk) : (s.withSk k).drawCount = s.drawCount := rfl
@[simp] theorem withSk_turnCount (s : State) (k : Sk) : (s.withSk k).turnCount = s.turnCount := rfl
@[simp] theorem withSk_readLog (s : State) (k : Sk) : (s.withSk k).readLog = s.readLog := rfl
@[simp] theorem withSk_withSk (s : State) (k k' : Sk) : (s.withSk k).withSk k' = s.withSk k' := rfl
@[simp] theorem withSk_self (s : State) : s.withSk s.sk = s := rfl

theorem withHm_withSk_comm (s : State) (h : Hm) (k : Sk) : (s.withHm h).withSk k = (s.withSk k).withHm h := rfl

@[simp] theorem afterDraw_hm (s : State) : (afterDraw s).hm = s.hm := rfl
@[simp] theorem afterDraw_sk (s : State) : (afterDraw s).sk = s.sk := rfl
@[simp] theorem afterDraw_events (s : State) : (afterDraw s).events = s.events := rfl
@[simp] theorem afterDraw_timeFeed (s : State) : (afterDraw s).timeFeed = s.timeFeed.tail := rfl
@[simp] theorem afterDraw_drawCount (s : State) : (afterDraw s).drawCount = s.drawCount + 1 := rfl
@[simp] theorem afterDraw_turnCount (s : State) : (afterDraw s).turnCount = s.turnCount := rfl
@[simp] theorem afterDraw_readLog (s : State) : (afterDraw s).readLog = s.readLog := rfl

@[simp] theorem resetEngine_hm (s : State) : (resetEngine s).hm = Hm.reset := rfl
@[simp] theorem resetEngine_sk (s : State) : (resetEngine s).sk = Sk.reset := rfl
@[simp] theorem resetEngine_events (s : State) : (resetEngine s).events = s.events := rfl
@[simp] theorem resetEngine_timeFeed (s : State) : (resetEngine s).timeFeed = s.timeFeed := rfl
@[simp] theorem resetEngine_drawCount (s : State) : (resetEngine s).drawCount = s.drawCount := rfl
@[simp] theorem resetEngine_turnCount (s : State) : (resetEngine s).turnCount = s.turnCount := rfl
@[simp] theorem resetEngine_readLog (s : State) : (resetEngine s).readLog = s.readLog := rfl

@[simp] theorem acceptStatus_busy (st : Status) : (acceptStatus st).busy = true := rfl
@[simp] theorem acceptStatus_done (st : Status) : (acceptStatus st).done = false := rfl
@[simp] theorem acceptStatus_init (st : Status) : (acceptStatus st).init = st.init := rfl
@[simp] theorem acceptStatus_errcode (st : Status) : (acceptStatus st).errcode = 0 := rfl
@[simp] theorem acceptStatus_overrun (st : Status) : (acceptStatus st).overrun = st.overrun := rfl

@[simp] theorem completeStatus_busy (st : Status) (c : ErrCode) : (completeStatus st c).busy = false := rfl
@[simp] theorem completeStatus_done (st : Status) (c : ErrCode) : (completeStatus st c).done = true := rfl
@[simp] theorem completeStatus_init (st : Status) (c : ErrCode) : (completeStatus st c).init = st.init := rfl
@[simp] theorem completeStatus_errcode (st : Status) (c : ErrCode) : (completeStatus st c).errcode = codeBits c := rfl
@[simp] theorem completeStatus_overrun (st : Status) (c : ErrCode) : (completeStatus st c).overrun = st.overrun := rfl

@[simp] theorem overrunStatus_busy (st : Status) : (overrunStatus st).busy = st.busy := rfl
@[simp] theorem overrunStatus_done (st : Status) : (overrunStatus st).done = st.done := rfl
@[simp] theorem overrunStatus_init (st : Status) : (overrunStatus st).init = st.init := rfl
@[simp] theorem overrunStatus_errcode (st : Status) : (overrunStatus st).errcode = st.errcode := rfl
@[simp] theorem overrunStatus_overrun (st : Status) : (overrunStatus st).overrun = true := rfl

@[simp] theorem initStatus_busy (st : Status) : (initStatus st).busy = st.busy := rfl
@[simp] theorem initStatus_done (st : Status) : (initStatus st).done = st.done := rfl
@[simp] theorem initStatus_init (st : Status) : (initStatus st).init = true := rfl
@[simp] theorem initStatus_errcode (st : Status) : (initStatus st).errcode = st.errcode := rfl
@[simp] theorem initStatus_overrun (st : Status) : (initStatus st).overrun = st.overrun := rfl

@[simp] theorem writeStatus_busy (st : Status) (v : Word) : (writeStatus st v).busy = st.busy := by
  unfold writeStatus; split <;> rfl
@[simp] theorem writeStatus_done (st : Status) (v : Word) : (writeStatus st v).done = st.done := by
  unfold writeStatus; split <;> rfl
@[simp] theorem writeStatus_init (st : Status) (v : Word) : (writeStatus st v).init = st.init := by
  unfold writeStatus; split <;> rfl
@[simp] theorem writeStatus_errcode (st : Status) (v : Word) : (writeStatus st v).errcode = st.errcode := by
  unfold writeStatus; split <;> rfl
@[simp] theorem writeStatus_overrun (st : Status) (v : Word) :
    (writeStatus st v).overrun = (st.overrun && !v.getLsbD 16) := by
  unfold writeStatus; split <;> simp_all

end Sys2Proof.Laws
end

