-- ==== Sys2Proof/Laws/Ops.lean ====
section
/-! SUPPORT. One lemma per shared operation that says once everything it can do. -/

namespace Sys2Proof.Laws

open Sys2Proof.Machine

/-- `complete` on HM writes the latch and STATUS and nothing else. -/
theorem complete_hm (c : ErrCode) (s : State) :
    complete .hm c s = s.withHm { s.hm with pend := none, status := completeStatus s.hm.status c } := rfl

/-- `complete` on SK writes the latch and STATUS and nothing else. -/
theorem complete_sk (c : ErrCode) (s : State) :
    complete .sk c s = s.withSk { s.sk with pend := none, status := completeStatus s.sk.status c } := rfl

@[simp] theorem complete_events (u : UnitId) (c : ErrCode) (s : State) : (complete u c s).events = s.events := by
  cases u <;> rfl
@[simp] theorem complete_timeFeed (u : UnitId) (c : ErrCode) (s : State) : (complete u c s).timeFeed = s.timeFeed := by
  cases u <;> rfl
@[simp] theorem complete_drawCount (u : UnitId) (c : ErrCode) (s : State) :
    (complete u c s).drawCount = s.drawCount := by cases u <;> rfl
@[simp] theorem complete_turnCount (u : UnitId) (c : ErrCode) (s : State) :
    (complete u c s).turnCount = s.turnCount := by cases u <;> rfl
@[simp] theorem complete_readLog (u : UnitId) (c : ErrCode) (s : State) : (complete u c s).readLog = s.readLog := by
  cases u <;> rfl
@[simp] theorem complete_hm_sk (c : ErrCode) (s : State) : (complete .hm c s).sk = s.sk := rfl
@[simp] theorem complete_sk_hm (c : ErrCode) (s : State) : (complete .sk c s).hm = s.hm := rfl

/-- An HM body runs on the latched command; with an empty latch the outcome is the fault. -/
@[simp] theorem withHmLatch_some (s : State) (p : HmLatch) (body : HmLatch → Result) (h : s.hm.pend = some p) :
    withHmLatch s body = body p := by simp [withHmLatch, h]

@[simp] theorem withHmLatch_none (s : State) (body : HmLatch → Result) (h : s.hm.pend = none) :
    withHmLatch s body = .fault (.emptyLatch .hm) := by simp [withHmLatch, h]

@[simp] theorem withSkLatch_some (s : State) (p : SkLatch) (body : SkLatch → Result) (h : s.sk.pend = some p) :
    withSkLatch s body = body p := by simp [withSkLatch, h]

@[simp] theorem withSkLatch_none (s : State) (body : SkLatch → Result) (h : s.sk.pend = none) :
    withSkLatch s body = .fault (.emptyLatch .sk) := by simp [withSkLatch, h]

/-- If an HM body answers a next state, a command was latched and the body answered it. -/
theorem withHmLatch_next {s t : State} {body : HmLatch → Result} (h : withHmLatch s body = .next t) :
    ∃ p, s.hm.pend = some p ∧ body p = .next t := by
  unfold withHmLatch at h
  split at h
  · cases h
  · exact ⟨_, ‹_›, h⟩

/-- If an SK body answers a next state, a command was latched and the body answered it. -/
theorem withSkLatch_next {s t : State} {body : SkLatch → Result} (h : withSkLatch s body = .next t) :
    ∃ p, s.sk.pend = some p ∧ body p = .next t := by
  unfold withSkLatch at h
  split at h
  · cases h
  · exact ⟨_, ‹_›, h⟩

/-- A draw answers the first listed value. -/
theorem drawnTime_cons (s : State) (t : Word) (rest : List Word) (h : s.timeFeed = t :: rest) : drawnTime s = t := by
  simp [drawnTime, h]

/-- A draw with no listed value is free. -/
theorem drawnTime_nil (s : State) (h : s.timeFeed = []) : drawnTime s = Config.nowUs s.drawCount := by
  simp [drawnTime, h]

/-- Acceptance on a BUSY unit only sets OVERRUN. -/
theorem acceptHm_busy (h : Hm) (w : Word) (hb : h.status.busy = true) :
    acceptHm h w = { h with status := overrunStatus h.status } := by simp [acceptHm, hb]

/-- Acceptance on an idle unit latches the word and the operands. -/
theorem acceptHm_idle (h : Hm) (w : Word) (hb : h.status.busy = false) :
    acceptHm h w = { h with pend := some (hmSnapshot h w), status := acceptStatus h.status } := by
  simp [acceptHm, hb]

theorem acceptSk_busy (k : Sk) (w : Word) (hb : k.status.busy = true) :
    acceptSk k w = { k with status := overrunStatus k.status } := by simp [acceptSk, hb]

theorem acceptSk_idle (k : Sk) (w : Word) (hb : k.status.busy = false) :
    acceptSk k w = { k with pend := some (skSnapshot k w), status := acceptStatus k.status } := by
  simp [acceptSk, hb]

/-- Every register of the map is found at its offset. -/
@[simp] theorem regAt_regOffset (r : Reg) : regAt (regOffset r) = some r := by
  cases r with
  | skSubkey i => revert i; decide
  | _ => rfl

/-- The register found at an offset has that offset. -/
theorem regOffset_of_regAt {o : Offset} {r : Reg} (h : regAt o = some r) : regOffset r = o := by
  simpa using List.find?_some h

/-- Every register lies in the register region, at a multiple of 8. -/
theorem regOffset_region (r : Reg) : (regOffset r).toNat < 0x10000 ∧ (regOffset r).toNat % 8 = 0 := by
  cases r with
  | skSubkey i => revert i; decide
  | _ => decide

/-- What a write does: nothing, or the effect on the register its offset names. -/
theorem memWrite_cases (s : State) (o : Offset) (w : Width) (v : Word) :
    memWrite s o w v = s ∨ ∃ r, w = .b8 ∧ regAt o = some r ∧ memWrite s o w v = writeReg s v r := by
  unfold memWrite
  split
  · split
    · exact .inr ⟨_, ‹_›, ‹_›, rfl⟩
    · exact .inl rfl
  · exact .inl rfl

/-- An 8-byte write at a register's offset. -/
@[simp] theorem memWrite_reg (s : State) (r : Reg) (v : Word) : memWrite s (regOffset r) .b8 v = writeReg s v r := by
  simp [memWrite]

/-- What a write can change, one case for each register it acts on. -/
theorem writeReg_cases (s : State) (v : Word) (r : Reg) :
    writeReg s v r = s ∨
    (r = .hmCmd ∧ writeReg s v r = s.withHm (acceptHm s.hm v)) ∨
    (r = .hmStatus ∧ writeReg s v r = s.withHm { s.hm with status := writeStatus s.hm.status v }) ∨
    (r = .hmSeedIn ∧ writeReg s v r = s.withHm { s.hm with seedIn := v }) ∨
    (r = .skCmd ∧ writeReg s v r = s.withSk (acceptSk s.sk v)) ∨
    (r = .skStatus ∧ writeReg s v r = s.withSk { s.sk with status := writeStatus s.sk.status v }) ∨
    (r = .skKeyIn ∧ writeReg s v r = s.withSk { s.sk with keyIn := v }) ∨
    (r = .skMin ∧ writeReg s v r = s.withSk { s.sk with min := v }) ∨
    (r = .skMax ∧ writeReg s v r = s.withSk { s.sk with max := v }) ∨
    (r = .pxIn ∧ writeReg s v r = s.withSk { s.sk with pxIn := v }) := by
  cases r <;> simp [writeReg]

/-- An 8-byte read at a register's offset. -/
@[simp] theorem memRead_reg (s : State) (r : Reg) : memRead s (regOffset r) .b8 = readReg s.hm s.sk r := by
  simp [memRead, (regOffset_region r).1]

/-- A read of the key window is the key-window view. -/
theorem memRead_window (s : State) (o : Offset) (w : Width) (h : 0x10000 ≤ o.toNat) :
    memRead s o w = keyWindowRead s.hm (o.toNat - 0x10000) w := by
  simp [memRead, Nat.not_lt.mpr h]

end Sys2Proof.Laws
end

