-- ==== Sys2Proof/Laws/Step.lean ====
section
/-! SUPPORT. What a meaning, a completion, an event and a step can do, said once. -/

namespace Sys2Proof.Laws

open Sys2Proof.Machine

/-- The raw key that HM.GEN stores, its four words put together again. -/
theorem rawKey_storeKey (h : Hm) (len : BitVec 16) (t : Word) :
    rawKey (storeKey h len t) = BitVec.ofNat 256 (genRaw (seedInt h.ssign h.seed) (uint h.count) t) := by
  simp only [rawKey, storeKey]
  generalize BitVec.ofNat 256 (genRaw (seedInt h.ssign h.seed) (uint h.count) t) = b
  rw [BitVec.extractLsb'_append_extractLsb'_eq_extractLsb' (by rfl),
    BitVec.extractLsb'_append_extractLsb'_eq_extractLsb' (by rfl),
    BitVec.extractLsb'_append_extractLsb'_eq_extractLsb' (by rfl)]
  simp

/-- A construction leaves no key. -/
theorem rawKey_constructHm (h : Hm) (seed : Word) (signed : Bool) : rawKey (constructHm h seed signed) = 0 := by
  simp [rawKey, constructHm]

/-- HM.INIT's next state. -/
theorem execHmInit_next {signed : Bool} {s t : State} (h : execHmInit signed s = .next t) :
    ∃ p, s.hm.pend = some p ∧ t = complete .hm .ok (s.withHm (constructHm s.hm p.seedIn signed)) := by
  obtain ⟨p, hp, hb⟩ := withHmLatch_next h
  cases hb
  exact ⟨p, hp, rfl⟩

/-- HM.INITT's next state. -/
theorem execHmInitt_next {s t : State} (h : execHmInitt s = .next t) :
    ∃ p, s.hm.pend = some p ∧
      t = complete .hm .ok ((afterDraw s).withHm (constructHm s.hm (drawnTime s) false)) := by
  obtain ⟨p, hp, hb⟩ := withHmLatch_next h
  cases hb
  exact ⟨p, hp, rfl⟩

/-- HM.GEN's next state: an error that only completes, or the stored key. -/
theorem execHmGen_next {len : BitVec 16} {s t : State} (h : execHmGen len s = .next t) :
    ∃ p, s.hm.pend = some p ∧
      ((s.hm.status.init = false ∧ t = complete .hm .notInitialised s) ∨
       (s.hm.status.init = true ∧ len = 0 ∧ t = complete .hm .invalidArgument s) ∨
       (s.hm.status.init = true ∧ len ≠ 0 ∧ uint s.hm.count = 2 ^ 64 - 1 ∧ t = complete .hm .countExhausted s) ∨
       (s.hm.status.init = true ∧ len ≠ 0 ∧ uint s.hm.count ≠ 2 ^ 64 - 1 ∧
         t = complete .hm .ok ((afterDraw s).withHm (storeKey s.hm len (drawnTime s))))) := by
  obtain ⟨p, hp, hb⟩ := withHmLatch_next h
  refine ⟨p, hp, ?_⟩
  by_cases hi : s.hm.status.init = false
  · rw [if_pos hi] at hb
    cases hb
    exact .inl ⟨hi, rfl⟩
  · rw [if_neg hi] at hb
    replace hi : s.hm.status.init = true := by simpa using hi
    by_cases hl : len = 0
    · rw [if_pos hl] at hb
      cases hb
      exact .inr (.inl ⟨hi, hl, rfl⟩)
    · rw [if_neg hl] at hb
      by_cases hc : uint s.hm.count = 2 ^ 64 - 1
      · rw [if_pos hc] at hb
        cases hb
        exact .inr (.inr (.inl ⟨hi, hl, hc, rfl⟩))
      · rw [if_neg hc] at hb
        cases hb
        exact .inr (.inr (.inr ⟨hi, hl, hc, rfl⟩))

/-- SK.INIT's next state. -/
theorem execSkInit_next {s t : State} (h : execSkInit s = .next t) :
    ∃ p, s.sk.pend = some p ∧ t = complete .sk .ok (s.withSk (constructSk s.sk p.keyIn)) := by
  obtain ⟨p, hp, hb⟩ := withSkLatch_next h
  cases hb
  exact ⟨p, hp, rfl⟩

/-- SK.INITT's next state. -/
theorem execSkInitt_next {s t : State} (h : execSkInitt s = .next t) :
    ∃ p, s.sk.pend = some p ∧
      t = complete .sk .ok ((afterDraw s).withSk (constructSk s.sk (milliseconds (drawnTime s)))) := by
  obtain ⟨p, hp, hb⟩ := withSkLatch_next h
  cases hb
  exact ⟨p, hp, rfl⟩

/-- SK.RAW's next state. -/
theorem execSkRaw_next {s t : State} (h : execSkRaw s = .next t) :
    ∃ p, s.sk.pend = some p ∧
      ((s.sk.status.init = false ∧ t = complete .sk .notInitialised s) ∨
       (s.sk.status.init = true ∧ t = complete .sk .ok (s.withSk (consumeSubkey s.sk (rawValue s.sk))))) := by
  obtain ⟨p, hp, hb⟩ := withSkLatch_next h
  refine ⟨p, hp, ?_⟩
  by_cases hi : s.sk.status.init = false
  · rw [if_pos hi] at hb
    cases hb
    exact .inl ⟨hi, rfl⟩
  · rw [if_neg hi] at hb
    cases hb
    exact .inr ⟨by simpa using hi, rfl⟩

/-- SK.RANGE's next state. -/
theorem execSkRange_next {s t : State} (h : execSkRange s = .next t) :
    ∃ p, s.sk.pend = some p ∧
      ((s.sk.status.init = false ∧ t = complete .sk .notInitialised s) ∨
       (s.sk.status.init = true ∧ rangeMax p < rangeMin p ∧ t = complete .sk .invalidArgument s) ∨
       (s.sk.status.init = true ∧ rangeMin p ≤ rangeMax p ∧
         t = complete .sk .ok (s.withSk (consumeSubkey s.sk (bits64 (rangeResult p (rawValue s.sk))))))) := by
  obtain ⟨p, hp, hb⟩ := withSkLatch_next h
  refine ⟨p, hp, ?_⟩
  by_cases hi : s.sk.status.init = false
  · rw [if_pos hi] at hb
    cases hb
    exact .inl ⟨hi, rfl⟩
  · rw [if_neg hi] at hb
    replace hi : s.sk.status.init = true := by simpa using hi
    by_cases hm : rangeMax p < rangeMin p
    · rw [if_pos hm] at hb
      cases hb
      exact .inr (.inl ⟨hi, hm, rfl⟩)
    · rw [if_neg hm] at hb
      cases hb
      exact .inr (.inr ⟨hi, not_lt.mp hm, rfl⟩)

/-- PX.ROTL's next state. -/
theorem execPxRotl_next {shamt : BitVec 16} {s t : State} (h : execPxRotl shamt s = .next t) :
    ∃ p, s.sk.pend = some p ∧
      ((32 < shamt.toNat ∧ t = complete .sk .invalidArgument s) ∨
       (shamt.toNat ≤ 32 ∧
         t = complete .sk .ok
           (s.withSk { s.sk with pxOut := (rotl32 (rotateOperand p) shamt.toNat).setWidth 64 }))) := by
  obtain ⟨p, hp, hb⟩ := withSkLatch_next h
  refine ⟨p, hp, ?_⟩
  by_cases hs : 32 < shamt.toNat
  · rw [if_pos hs] at hb
    cases hb
    exact .inl ⟨hs, rfl⟩
  · rw [if_neg hs] at hb
    cases hb
    exact .inr ⟨not_lt.mp hs, rfl⟩

/-- PX.BRX's next state. -/
theorem execPxBrx_next {s t : State} (h : execPxBrx s = .next t) :
    ∃ p, s.sk.pend = some p ∧ t = complete .sk .ok (s.withSk { s.sk with pxOut := brx64 p.pxIn }) := by
  obtain ⟨p, hp, hb⟩ := withSkLatch_next h
  cases hb
  exact ⟨p, hp, rfl⟩

/-- What any command can do: an error that only completes, or a success of its own unit, which keeps OVERRUN and the latch
until `complete` and draws at most once, in three commands only. -/
theorem exec_next {i : Instr} {s t : State} (h : exec i s = .next t) :
    (∃ c, c ≠ ErrCode.ok ∧ t = complete i.unit c s) ∨
    (i.unit = .hm ∧ ∃ s' h', (s' = s ∨ (s' = afterDraw s ∧ (i = .hmInitt ∨ ∃ l, i = .hmGen l))) ∧
      h'.status.init = true ∧ h'.status.overrun = s.hm.status.overrun ∧ h'.pend = s.hm.pend ∧
      t = complete .hm .ok (s'.withHm h')) ∨
    (i.unit = .sk ∧ ∃ s' k', (s' = s ∨ (s' = afterDraw s ∧ i = .skInitt ∧ k'.status.init = true)) ∧
      (k'.status.init = true ∨ k'.status.init = s.sk.status.init) ∧
      k'.status.overrun = s.sk.status.overrun ∧ k'.pend = s.sk.pend ∧
      t = complete .sk .ok (s'.withSk k')) := by
  cases i with
  | hmInit S =>
    obtain ⟨p, hp, rfl⟩ := execHmInit_next h
    exact .inr (.inl ⟨rfl, s, _, .inl rfl, by rfl, by rfl, by rfl, rfl⟩)
  | hmInitt =>
    obtain ⟨p, hp, rfl⟩ := execHmInitt_next h
    exact .inr (.inl ⟨rfl, _, _, .inr ⟨rfl, .inl rfl⟩, by rfl, by rfl, by rfl, rfl⟩)
  | hmGen l =>
    obtain ⟨p, hp, ⟨_, rfl⟩ | ⟨_, _, rfl⟩ | ⟨_, _, _, rfl⟩ | ⟨hi, _, _, rfl⟩⟩ := execHmGen_next h
    · exact .inl ⟨_, by decide, rfl⟩
    · exact .inl ⟨_, by decide, rfl⟩
    · exact .inl ⟨_, by decide, rfl⟩
    · exact .inr (.inl ⟨rfl, _, _, .inr ⟨rfl, .inr ⟨_, rfl⟩⟩, by exact hi, by rfl, by rfl, rfl⟩)
  | skInit =>
    obtain ⟨p, hp, rfl⟩ := execSkInit_next h
    exact .inr (.inr ⟨rfl, s, _, .inl rfl, .inl (by rfl), by rfl, by rfl, rfl⟩)
  | skInitt =>
    obtain ⟨p, hp, rfl⟩ := execSkInitt_next h
    exact .inr (.inr ⟨rfl, _, _, .inr ⟨rfl, rfl, by rfl⟩, .inl (by rfl), by rfl, by rfl, rfl⟩)
  | skRaw =>
    obtain ⟨p, hp, ⟨_, rfl⟩ | ⟨_, rfl⟩⟩ := execSkRaw_next h
    · exact .inl ⟨_, by decide, rfl⟩
    · exact .inr (.inr ⟨rfl, s, _, .inl rfl, .inr (by rfl), by rfl, by rfl, rfl⟩)
  | skRange =>
    obtain ⟨p, hp, ⟨_, rfl⟩ | ⟨_, _, rfl⟩ | ⟨_, _, rfl⟩⟩ := execSkRange_next h
    · exact .inl ⟨_, by decide, rfl⟩
    · exact .inl ⟨_, by decide, rfl⟩
    · exact .inr (.inr ⟨rfl, s, _, .inl rfl, .inr (by rfl), by rfl, by rfl, rfl⟩)
  | pxRotl n =>
    obtain ⟨p, hp, ⟨_, rfl⟩ | ⟨_, rfl⟩⟩ := execPxRotl_next h
    · exact .inl ⟨_, by decide, rfl⟩
    · exact .inr (.inr ⟨rfl, s, _, .inl rfl, .inr (by rfl), by rfl, by rfl, rfl⟩)
  | pxBrx =>
    obtain ⟨p, hp, rfl⟩ := execPxBrx_next h
    exact .inr (.inr ⟨rfl, s, _, .inl rfl, .inr (by rfl), by rfl, by rfl, rfl⟩)

/-- What a completion step can do: nothing (the unit is idle), a command's own effect, or ILLEGAL_COMMAND. -/
theorem completion_next {u : UnitId} {s t : State} (h : completion u s = .next t) :
    (unitBusy u s = false ∧ t = s) ∨
    (∃ w i, unitBusy u s = true ∧ latchedWord u s = some w ∧ decode u w = .ok i ∧ exec i s = .next t) ∨
    (∃ w e, unitBusy u s = true ∧ latchedWord u s = some w ∧ decode u w = .error e ∧
      t = complete u .illegalCommand s) := by
  unfold completion at h
  split at h
  · rename_i hb
    split at h
    · rename_i w hw
      unfold completeWord at h
      split at h
      · exact .inr (.inl ⟨w, _, hb, hw, ‹_›, h⟩)
      · cases h
        exact .inr (.inr ⟨w, _, hb, hw, ‹_›, rfl⟩)
    · cases h
  · rename_i hb
    cases h
    exact .inl ⟨by simpa using hb, rfl⟩

/-- What the engine's own turn can do: nothing, or the completion of a BUSY unit. -/
theorem engineTurn_next {s t : State} (h : engineTurn s = .next t) :
    (s.hm.status.busy = false ∧ s.sk.status.busy = false ∧ t = s) ∨
    (∃ u n, unitBusy u s = true ∧ completion u { s with turnCount := n } = .next t) := by
  unfold engineTurn at h
  split at h
  · rename_i hh
    split at h
    · rename_i hs
      refine .inr ⟨if Config.skFirst s.turnCount then .sk else .hm, s.turnCount + 1, ?_, h⟩
      by_cases hc : Config.skFirst s.turnCount = true <;> simp [hc, unitBusy, hh, hs]
    · exact .inr ⟨.hm, s.turnCount, hh, h⟩
  · rename_i hh
    split at h
    · rename_i hs
      exact .inr ⟨.sk, s.turnCount, hs, h⟩
    · rename_i hs
      cases h
      exact .inl ⟨by simpa using hh, by simpa using hs, rfl⟩

/-- What a step can do. -/
theorem step_next {s t : State} (h : step s = .next t) :
    (s.events = [] ∧ engineTurn s = .next t) ∨
    (∃ host o w rest, s.events = .read host o w :: rest ∧ t = hostRead host o w { s with events := rest }) ∨
    (∃ host o w v rest, s.events = .write host o w v :: rest ∧ t = memWrite { s with events := rest } o w v) ∨
    (∃ u rest, s.events = .complete u :: rest ∧ completion u { s with events := rest } = .next t) ∨
    (∃ rest, s.events = .reset :: rest ∧ t = resetEngine { s with events := rest }) := by
  unfold step at h
  split at h
  · exact .inl ⟨‹_›, h⟩
  · rename_i e rest he
    cases e with
    | read host o w => cases h; exact .inr (.inl ⟨host, o, w, rest, he, rfl⟩)
    | write host o w v => cases h; exact .inr (.inr (.inl ⟨host, o, w, v, rest, he, rfl⟩))
    | complete u => exact .inr (.inr (.inr (.inl ⟨u, rest, he, h⟩)))
    | reset => cases h; exact .inr (.inr (.inr (.inr ⟨rest, he, rfl⟩)))

end Sys2Proof.Laws
end

