-- ==== Sys2Proof/Laws/HostAsm.lean ====
section
/-! SUPPORT. A run of the machine on listed events: what an event does is independent of the events still to come, and what
holds turn by turn of a host program holds at the end of the run of its events. -/

namespace Sys2Proof.Laws

open Sys2Proof.Machine

/-- The machine with other events to come. -/
def withEvents (s : State) (es : List Event) : State := { s with events := es }

@[simp] theorem withEvents_hm (s : State) (es : List Event) : (withEvents s es).hm = s.hm := rfl
@[simp] theorem withEvents_sk (s : State) (es : List Event) : (withEvents s es).sk = s.sk := rfl
@[simp] theorem withEvents_events (s : State) (es : List Event) : (withEvents s es).events = es := rfl
@[simp] theorem withEvents_readLog (s : State) (es : List Event) : (withEvents s es).readLog = s.readLog := rfl
@[simp] theorem withEvents_withEvents (s : State) (es es' : List Event) :
    withEvents (withEvents s es) es' = withEvents s es' := rfl
@[simp] theorem withEvents_self (s : State) : withEvents s s.events = s := rfl

/-- A completion that answers a next state answers it whatever events are still to come. -/
theorem completion_withEvents {u : UnitId} {s t : State} (es : List Event) (h : completion u s = .next t) :
    completion u (withEvents s es) = .next (withEvents t es) := by
  have hexec : ∀ i, exec i s = .next t → exec i (withEvents s es) = .next (withEvents t es) := by
    intro i hx
    cases i with
    | hmInit signed =>
      obtain ⟨p, hp, rfl⟩ := execHmInit_next hx
      simp only [exec, execHmInit, withHmLatch_some (withEvents s es) p _ hp]; rfl
    | hmInitt =>
      obtain ⟨p, hp, rfl⟩ := execHmInitt_next hx
      simp only [exec, execHmInitt, withHmLatch_some (withEvents s es) p _ hp]; rfl
    | hmGen len =>
      obtain ⟨p, hp, ⟨h0, rfl⟩ | ⟨h0, h1, rfl⟩ | ⟨h0, h1, h2, rfl⟩ | ⟨h0, h1, h2, rfl⟩⟩ := execHmGen_next hx <;>
        simp only [exec, execHmGen, withHmLatch_some (withEvents s es) p _ hp]
      · rw [if_pos (show (withEvents s es).hm.status.init = false from h0)]; rfl
      all_goals rw [if_neg (show ¬(withEvents s es).hm.status.init = false by simp [h0])]
      · rw [if_pos h1]; rfl
      all_goals rw [if_neg h1]
      · rw [if_pos (show uint (withEvents s es).hm.count = 2 ^ 64 - 1 from h2)]; rfl
      · rw [if_neg (show ¬uint (withEvents s es).hm.count = 2 ^ 64 - 1 from h2)]; rfl
    | skInit =>
      obtain ⟨p, hp, rfl⟩ := execSkInit_next hx
      simp only [exec, execSkInit, withSkLatch_some (withEvents s es) p _ hp]; rfl
    | skInitt =>
      obtain ⟨p, hp, rfl⟩ := execSkInitt_next hx
      simp only [exec, execSkInitt, withSkLatch_some (withEvents s es) p _ hp]; rfl
    | skRaw =>
      obtain ⟨p, hp, ⟨h0, rfl⟩ | ⟨h0, rfl⟩⟩ := execSkRaw_next hx <;>
        simp only [exec, execSkRaw, withSkLatch_some (withEvents s es) p _ hp, withEvents_sk, h0, Bool.true_eq_false,
          if_true, if_false] <;> rfl
    | skRange =>
      obtain ⟨p, hp, ⟨h0, rfl⟩ | ⟨h0, h1, rfl⟩ | ⟨h0, h1, rfl⟩⟩ := execSkRange_next hx <;>
        simp only [exec, execSkRange, withSkLatch_some (withEvents s es) p _ hp, withEvents_sk, h0, Bool.true_eq_false,
          if_true, if_false]
      · rfl
      · rw [if_pos h1]; rfl
      · rw [if_neg (not_lt.mpr h1)]; rfl
    | pxRotl shamt =>
      obtain ⟨p, hp, ⟨h0, rfl⟩ | ⟨h0, rfl⟩⟩ := execPxRotl_next hx <;>
        simp only [exec, execPxRotl, withSkLatch_some (withEvents s es) p _ hp]
      · rw [if_pos h0]; rfl
      · rw [if_neg (not_lt.mpr h0)]; rfl
    | pxBrx =>
      obtain ⟨p, hp, rfl⟩ := execPxBrx_next hx
      simp only [exec, execPxBrx, withSkLatch_some (withEvents s es) p _ hp]; rfl
  have hbusy : unitBusy u (withEvents s es) = unitBusy u s := by cases u <;> rfl
  have hlatch : latchedWord u (withEvents s es) = latchedWord u s := by cases u <;> rfl
  rcases completion_next h with ⟨hb, rfl⟩ | ⟨w, i, hb, hl, hd, hx⟩ | ⟨w, e, hb, hl, hd, rfl⟩
  · simp [completion, hbusy, hb]
  · simp [completion, completeWord, hbusy, hlatch, hb, hl, hd, hexec i hx]
  · simp only [completion, completeWord, hbusy, hlatch, hb, hl, hd, raise]
    cases u <;> rfl

/-- An event that answers a next state answers it whatever events are still to come. -/
theorem applyEvent_withEvents {e : Event} {s t : State} (es : List Event) (h : applyEvent e s = .next t) :
    applyEvent e (withEvents s es) = .next (withEvents t es) := by
  cases e with
  | read host o w => cases h; rfl
  | write host o w v =>
    cases h
    simp only [applyEvent, memWrite]
    split
    · split
      · rename_i r _
        cases r <;> rfl
      · rfl
    · rfl
  | complete u => exact completion_withEvents es h
  | reset => cases h; rfl

/-- A step takes the first event off the list. -/
theorem step_withEvents {e : Event} {s t : State} (es : List Event) (h : applyEvent e s = .next t) :
    step (withEvents s (e :: es)) = .next (withEvents t es) := by
  show applyEvent e (withEvents s es) = _
  exact applyEvent_withEvents es h

/-- If `P` holds of a program and a state, and is kept by every access of the host and by every admitted event of the other
agents, then running the events of the program answers a state of which `P` holds with what is left of the program. -/
theorem run_programEvents (P : List HostOp → State → Prop) (L : Event → Prop)
    (hother : ∀ e ops s, L e → P ops s → ∃ t, applyEvent e s = .next t ∧ P ops t)
    (hhost : ∀ op rest s, P (op :: rest) s → ∃ t, applyEvent op.event s = .next t ∧ P (opsAfter op rest s) t)
    (turns : List Turn) (ops : List HostOp) (s : State) (hL : ∀ e, Turn.other e ∈ turns → L e) (hP : P ops s) :
    ∃ t, Host.Core.run core (programEvents turns ops s).1.length (withEvents s (programEvents turns ops s).1) =
        .next (withEvents t []) ∧ P (programEvents turns ops s).2 t := by
  induction turns generalizing ops s with
  | nil => exact ⟨s, rfl, hP⟩
  | cons turn turns ih =>
    have hL' : ∀ e, Turn.other e ∈ turns → L e := fun e he => hL e (List.mem_cons_of_mem _ he)
    cases turn with
    | other e =>
      obtain ⟨t, ht, hPt⟩ := hother e ops s (hL e List.mem_cons_self) hP
      obtain ⟨t', hrun, hP'⟩ := ih ops t hL' hPt
      refine ⟨t', ?_, by simpa [programEvents, ht] using hP'⟩
      simp only [programEvents, ht, List.length_cons, Host.Core.run]
      rw [show core.step = step from rfl, step_withEvents _ ht]
      exact hrun
    | host =>
      cases ops with
      | nil => exact ih [] s hL' hP
      | cons op rest =>
        obtain ⟨t, ht, hPt⟩ := hhost op rest s hP
        obtain ⟨t', hrun, hP'⟩ := ih (opsAfter op rest s) t hL' hPt
        refine ⟨t', ?_, by simpa [programEvents, ht] using hP'⟩
        simp only [programEvents, ht, List.length_cons, Host.Core.run]
        rw [show core.step = step from rfl, step_withEvents _ ht]
        exact hrun

/-- What a host polling STATUS does next is told by BUSY. -/
theorem opsAfter_poll (host : Nat) (u : UnitId) (rest : List HostOp) (s : State) :
    opsAfter (.poll host u) rest s = if unitBusy u s then .poll host u :: rest else rest := by
  have h : (memRead s (regOffset (statusReg u)) .b8).getLsbD 0 = unitBusy u s := by
    rw [memRead_reg]
    cases u <;> simp only [statusReg, readReg, statusWord, unitBusy, BitVec.getLsbD_append] <;> simp
  simp only [opsAfter, h]

end Sys2Proof.Laws
end

