-- ==== Sys2Proof/Laws/PerInstr.lean ====
section
/-! SUPPORT. One family over the instructions: the encoder agrees with the `match` and `mask` columns of
spec/opcode_table.json. -/

namespace Sys2Proof.Laws

/-- The encoding of an instruction has its row's fixed bits. -/
def TableRow.Statement (i : Instr) : Prop := encode i &&& rowMask i = rowMatch i

theorem TableRow.hmInit (s : Bool) : TableRow.Statement (.hmInit s) := by
  cases s <;> (unfold TableRow.Statement; decide)

theorem TableRow.hmInitt : TableRow.Statement .hmInitt := by unfold TableRow.Statement; decide

theorem TableRow.hmGen (l : BitVec 16) : TableRow.Statement (.hmGen l) := by
  simp only [TableRow.Statement, encode, rowMask, rowMatch, immOf, subOf, opcodeOf]
  ext i hi
  simp only [BitVec.getElem_and, BitVec.getElem_append, BitVec.getElem_setWidth]
  interval_cases i <;> simp

theorem TableRow.skInit : TableRow.Statement .skInit := by unfold TableRow.Statement; decide

theorem TableRow.skInitt : TableRow.Statement .skInitt := by unfold TableRow.Statement; decide

theorem TableRow.skRaw : TableRow.Statement .skRaw := by unfold TableRow.Statement; decide

theorem TableRow.skRange : TableRow.Statement .skRange := by unfold TableRow.Statement; decide

theorem TableRow.pxRotl (s : BitVec 16) : TableRow.Statement (.pxRotl s) := by
  simp only [TableRow.Statement, encode, rowMask, rowMatch, immOf, subOf, opcodeOf]
  ext i hi
  simp only [BitVec.getElem_and, BitVec.getElem_append, BitVec.getElem_setWidth]
  interval_cases i <;> simp

theorem TableRow.pxBrx : TableRow.Statement .pxBrx := by unfold TableRow.Statement; decide

end Sys2Proof.Laws
end

