-- ==== Sys2Proof/Tests/Slice0.lean ====
section
/-! SUPPORT. Tests on fixed values taken from spec/95_test_vectors.md and spec/30_encoding.md, the smoke tests of WellFormed,
and for every obligation with hypotheses a witness that they can be met. -/

namespace Sys2Proof.Tests

-- One theorem after the other: the many short kernel evaluations below would else each take a thread, with its stack.
set_option Elab.async false

open Sys2Proof.Machine Sys2Proof.Safety

/-! ## Helpers -/

/-- The next state of an outcome, if it is one. -/
def nextOf : Result → Option State
  | .next s => some s
  | .fault _ => none
  | .refused _ => none

/-- STATUS of a unit that holds an accepted command. -/
def busyStatus (init : Bool) : Status := acceptStatus { Status.reset with init := init }

/-- An HM unit that holds the command word `cmd` and the seed operand, with the given INIT, SSIGN, HM_SEED and HM_COUNT. -/
def hmPending (cmd operand : Word) (init ssign : Bool) (seed count : Word) : State :=
  { State.reset with
    hm := { Hm.reset with
      pend := some { cmd := cmd, seedIn := operand }, status := busyStatus init, ssign := ssign, seed := seed
      count := count } }

/-- The unit of table SK-B: constructed from 123456. -/
def skB : Sk := constructSk Sk.reset 123456

/-- A unit that holds the command word `cmd` and the operands. -/
def skPending (k : Sk) (cmd keyIn min max pxIn : Word) : State :=
  { State.reset with
    sk := { k with
      pend := some { cmd := cmd, keyIn := keyIn, min := min, max := max, pxIn := pxIn }
      status := busyStatus k.status.init } }

/-- A machine with the given events to come. -/
def listing (s : State) (es : List Event) : State := { s with events := es }

/-- `n` steps, where none stops. -/
def steps (n : Nat) (s : State) : State :=
  match Host.Core.run core n s with
  | .next (t : State) => t
  | .fault _ => s
  | .refused _ => s

/-- After HM.INIT signed with seed -1, HM.GEN 16 at time 0 (vector HM-4) and SK.INIT with 123456, from reset. -/
def keyed : State :=
  steps 8 { State.reset with
    timeFeed := [0]
    events := [.write 1 0x010 .b8 0xFFFFFFFFFFFFFFFF, .write 1 0x000 .b8 0x101, .complete .hm,
      .write 1 0x110 .b8 123456, .write 2 0x100 .b8 0x11, .complete .sk,
      .write 1 0x000 .b8 0x100003, .complete .hm] }

/-! ## WellFormed -/

/-- Each command is refused on the other unit. -/
theorem test_wf_refuses_the_wrong_unit :
    Command.wf { unit := .sk, instr := .hmInit true } = false ∧ Command.wf { unit := .sk, instr := .hmInitt } = false ∧
    Command.wf { unit := .sk, instr := .hmGen 16 } = false ∧ Command.wf { unit := .hm, instr := .skInit } = false ∧
    Command.wf { unit := .hm, instr := .skInitt } = false ∧ Command.wf { unit := .hm, instr := .skRaw } = false ∧
    Command.wf { unit := .hm, instr := .skRange } = false ∧ Command.wf { unit := .hm, instr := .pxRotl 1 } = false ∧
    Command.wf { unit := .hm, instr := .pxBrx } = false ∧ Command.wf { unit := .sk, instr := .skRaw } = true := by
  decide

/-- An operand outside 0..65535 is refused, and the largest one is not. -/
theorem test_wf_refuses_a_wide_operand :
    AsmCommand.wf (.hmGen (some 65536)) = false ∧ AsmCommand.wf (.pxRotl 65536) = false ∧
    AsmCommand.wf (.hmGen (some 65535)) = true ∧ AsmCommand.wf (.pxRotl 65535) = true ∧
    assemble (.hmGen (some 65536)) = none ∧ assemble (.pxRotl 65536) = none := by
  decide

/-! ## Decoding: words written out from 30_encoding.md R62 and R63 -/

/-- OP 0x01, S in word bit 8. -/
theorem test_decode_hm_init :
    decode .hm (0b00000001#64) = .ok (.hmInit false) ∧ decode .hm (0b1_00000001#64) = .ok (.hmInit true) := by decide

/-- OP 0x02. -/
theorem test_decode_hm_initt : decode .hm (0b00000010#64) = .ok .hmInitt := by decide

/-- OP 0x03 with LEN in bits 31:16: 16, 70 and the largest length. -/
theorem test_decode_hm_gen :
    decode .hm (0b0000000000010000_00000000_00000011#64) = .ok (.hmGen 16) ∧
    decode .hm (0b0000000001000110_00000000_00000011#64) = .ok (.hmGen 70) ∧
    decode .hm (0b1111111111111111_00000000_00000011#64) = .ok (.hmGen 65535) := by decide

/-- OP 0x11. -/
theorem test_decode_sk_init : decode .sk (0b00010001#64) = .ok .skInit := by decide

/-- OP 0x12. -/
theorem test_decode_sk_initt : decode .sk (0b00010010#64) = .ok .skInitt := by decide

/-- OP 0x13. -/
theorem test_decode_sk_raw : decode .sk (0b00010011#64) = .ok .skRaw := by decide

/-- OP 0x14. -/
theorem test_decode_sk_range : decode .sk (0b00010100#64) = .ok .skRange := by decide

/-- OP 0x21 with SHAMT in bits 31:16: 4 and 33 (program P4) and the largest amount. -/
theorem test_decode_px_rotl :
    decode .sk (0b0000000000000100_00000000_00100001#64) = .ok (.pxRotl 4) ∧
    decode .sk (0b0000000000100001_00000000_00100001#64) = .ok (.pxRotl 33) ∧
    decode .sk (0b1111111111111111_00000000_00100001#64) = .ok (.pxRotl 65535) := by decide

/-- OP 0x22. -/
theorem test_decode_px_brx : decode .sk (0b00100010#64) = .ok .pxBrx := by decide

/-- The illegal words of vectors E7 to E11, and the field each is refused for. -/
theorem test_decode_refuses_illegal_words :
    decode .hm 0x100000003 = .error .reservedHigh ∧ decode .hm 0x8000000000000001 = .error .reservedHigh ∧
    decode .hm 0x103 = .error .reservedSub ∧ decode .hm 0x10001 = .error .immediate ∧
    decode .hm 0x201 = .error .reservedSub ∧ decode .hm 0x8001 = .error .reservedSub ∧
    decode .hm 0x0 = .error .opcode ∧ decode .hm 0x13 = .error .opcode ∧ decode .sk 0x01 = .error .opcode ∧
    decode .sk 0x0 = .error .opcode ∧ decode .sk 0xFF = .error .opcode ∧ decode .sk 0x111 = .error .reservedSub ∧
    decode .sk 0x10022 = .error .immediate := by decide

/-- The words of the opcode table as the host asks for them. -/
theorem test_decode_table_words :
    decodeTableWord 64 0x01 = some (.hmInit false) ∧ decodeTableWord 64 0x02 = some .hmInitt ∧
    decodeTableWord 64 0x03 = some (.hmGen 0) ∧ decodeTableWord 64 0x11 = some .skInit ∧
    decodeTableWord 64 0x12 = some .skInitt ∧ decodeTableWord 64 0x13 = some .skRaw ∧
    decodeTableWord 64 0x14 = some .skRange ∧ decodeTableWord 64 0x200021 = some (.pxRotl 32) ∧
    decodeTableWord 64 0x22 = some .pxBrx ∧ decodeTableWord 64 0x23 = none := by decide

/-! ## The datapath: sections 2 and 4 of spec/95_test_vectors.md -/

/-- Table V-ROT. -/
theorem test_rotl32 :
    rotl32 0x80000000 2 = 0x00000002 ∧ rotl32 0x12345678 4 = 0x23456781 ∧ rotl32 0x12345678 31 = 0x091A2B3C ∧
    rotl32 0xDEADBEEF 16 = 0xBEEFDEAD ∧ rotl32 0x12345678 32 = 0x12345678 ∧ rotl32 0x12345678 0 = 0x12345678 := by
  decide

/-- Table V-BRX. -/
theorem test_rev64_brx64 :
    rev64 0x0123456789ABCDEF = 0xF7B3D591E6A2C480 ∧ brx64 0x0123456789ABCDEF = 0xF69090F66F09096F ∧
    brx64 0x000000000000FFFF = 0xFFFF00000000FFFF ∧ brx64 1 = 0x8000000000000001 := by
  decide +kernel

/-- Table V-MIX. -/
theorem test_avalanche_mix :
    avalancheMix 2 = 0x102 ∧ avalancheMix 0x1234 = 0x90830 ∧
    avalancheMix (2 ^ 256 - 1) = 0x7F03C781FC00000000000000000000000000000000000000000000000000000000 := by
  decide +kernel

/-- Table V-TXT: `-1000004`, `0` and `4C7`, and the length of the most negative start. -/
theorem test_text :
    dec (-1000004) = [0x2D, 0x31, 0x30, 0x30, 0x30, 0x30, 0x30, 0x34] ∧ dec 0 = [0x30] ∧
    hexU 0x4C7 = [0x34, 0x43, 0x37] ∧ hexU 0 = [0x30] ∧ (dec (-18446790190569735891879046)).length = 27 := by
  decide +kernel

/-- Table V-SHA: `abc`, `0` and `-1`. -/
theorem test_hashint :
    hashint [0x61, 0x62, 0x63] = 0xba7816bf8f01cfea414140de5dae2223b00361a396177a9cb410ff61f20015ad ∧
    hashint (dec 0) = 0x5feceb66ffc86f38d952786c6d696c79c2dbc239dd4e91b46729d73a27fb57e9 ∧
    hashint (dec (-1)) = 0x1bad6b8cf97131fceab8543e81f7757195fbb1d36b376ee994ad1cf17699c464 := by
  decide +kernel

/-! ## The commands -/

/-- 41_hash_mix.md R87: the example of HM.INIT signed, on a unit whose count was 7. -/
theorem test_hm_init :
    (nextOf (exec (.hmInit true) (hmPending 0x101 0xFFFFFFFFFFFFFFFF true false 3 7))).map
        (fun t => (t.hm.seed, t.hm.count, memRead t 0x008 .b8)) = some (0xFFFFFFFFFFFFFFFF, 0, 0x1A) ∧
    seedInt true 0xFFFFFFFFFFFFFFFF = -1 ∧ seedInt false 0xFFFFFFFFFFFFFFFF = 2 ^ 64 - 1 := by
  decide

/-- 41_hash_mix.md R88: the example of HM.INITT. -/
theorem test_hm_initt :
    (nextOf (exec .hmInitt { hmPending 0x2 5 false true 0 0 with timeFeed := [1700000000000000, 9] })).map
        (fun t => (t.hm.seed, t.hm.time, t.hm.ssign, memRead t 0x008 .b8, t.timeFeed)) =
      some (1700000000000000, 0, false, 0xA, [9]) := by
  decide

/-- Vector HM-5: negative start, `mixed` of 263 bits, a two-block text. -/
theorem test_hm_gen_vector_hm5 :
    (nextOf (exec (.hmGen 16) { hmPending 0x100003 0 true true 0xFFFFFFFFFFFFFFFF 1 with timeFeed := [0] })).map
        (fun t => ([t.hm.rawkey3, t.hm.rawkey2, t.hm.rawkey1, t.hm.rawkey0], t.hm.hexlen, t.hm.count)) =
      some ([0xAB59D0A959250D98, 0x2C49B0C458A79DFC, 0x0B0D7011A9440D43, 0xD579174305AFD839], 64, 2) := by
  decide +kernel

/-- Vectors E2, E3, E4 and E5: the STATUS values of HM.GEN's errors. -/
theorem test_hm_gen_errors :
    ((nextOf (exec (.hmGen 0) (hmPending 0x3 0 false false 0 0))).map fun t => memRead t 0x008 .b8) = some 0x206 ∧
    ((nextOf (exec (.hmGen 0) (hmPending 0x3 0 true false 0 0))).map fun t => memRead t 0x008 .b8) = some 0x10E ∧
    ((nextOf (exec (.hmGen 16) (hmPending 0x100003 0 true false 0 0xFFFFFFFFFFFFFFFF))).map
      fun t => memRead t 0x008 .b8) = some 0x40E ∧
    ((nextOf (exec (.hmGen 0) (hmPending 0x3 0 true false 0 0xFFFFFFFFFFFFFFFF))).map
      fun t => memRead t 0x008 .b8) = some 0x10E := by
  decide

/-- Table SK-B by SK.INIT: the first, a middle and the last subkey, read through the register map. -/
theorem test_sk_init :
    (nextOf (exec .skInit (skPending Sk.reset 0x11 123456 0 0 0))).map
        (fun t => [memRead t 0x180 .b8, memRead t 0x1C8 .b8, memRead t 0x1F8 .b8, memRead t 0x108 .b8]) =
      some [0x0123C0000003C480, 0xC0000123C481B204, 0x247800000002F17B, 0xA] := by
  decide +kernel

/-- 42_subkey_schedule.md R98: the example of SK.INITT. -/
theorem test_sk_initt :
    (nextOf (exec .skInitt { skPending Sk.reset 0x12 5 0 0 0 with timeFeed := [1700000000123456] })).map
        (fun t => (t.sk.master, t.drawCount)) = some (1700000000123, 1) := by
  decide +kernel

/-- Table SK-B: the raw value at cursor 9, and the wrap at cursor 15. -/
theorem test_sk_raw :
    (nextOf (exec .skRaw (skPending { skB with cursor := 9 } 0x13 0 0 0 0))).map
        (fun t => (t.sk.result, t.sk.cursor)) = some (0xE04D80000001B207, 10) ∧
    (nextOf (exec .skRaw (skPending { skB with cursor := 15 } 0x13 0 0 0 0))).map
        (fun t => (t.sk.result, t.sk.cursor)) = some (0xFAF740000002EF5F, 0) := by
  decide +kernel

/-- Table V-RANGE: -10 to 10 at cursor 4, and the full range at cursor 1. -/
theorem test_sk_range :
    (nextOf (exec .skRange (skPending { skB with cursor := 4 } 0x14 0 (-10) 10 0))).map
        (fun t => (t.sk.result.toInt, t.sk.cursor)) = some (8, 5) ∧
    (nextOf (exec .skRange (skPending { skB with cursor := 1 } 0x14 0 0x8000000000000000 0x7FFFFFFFFFFFFFFF 0))).map
        (fun t => (t.sk.result, t.sk.cursor)) = some (0x1C0C000000003039, 2) := by
  decide +kernel

/-- Vectors E12, E13, E14 and E16: the STATUS values of SK's errors. -/
theorem test_sk_errors :
    ((nextOf (exec .skRaw (skPending Sk.reset 0x13 0 0 0 0))).map fun t => memRead t 0x108 .b8) = some 0x206 ∧
    ((nextOf (exec .skRange (skPending Sk.reset 0x14 0 10 9 0))).map fun t => memRead t 0x108 .b8) = some 0x206 ∧
    ((nextOf (exec .skRange (skPending skB 0x14 0 10 9 0))).map fun t => (memRead t 0x108 .b8, t.sk.cursor)) =
      some (0x10E, 0) ∧
    ((nextOf (exec .skRange (skPending skB 0x14 0 0x7FFFFFFFFFFFFFFF 0x8000000000000000 0))).map
      fun t => memRead t 0x108 .b8) = some 0x10E := by
  decide +kernel

/-- Program P4: PX.ROTL by 4 and by 33; the upper half of PX_IN is ignored (44_pipeline_diag.md R105). -/
theorem test_px_rotl :
    ((nextOf (exec (.pxRotl 4) (skPending Sk.reset 0x40021 0 0 0 0xFFFFFFFF12345678))).map fun t => t.sk.pxOut) =
      some 0x23456781 ∧
    ((nextOf (exec (.pxRotl 33) (skPending skB 0x210021 0 0 0 0x12345678))).map
      fun t => (t.sk.pxOut, memRead t 0x108 .b8)) = some (0, 0x10E) := by
  decide +kernel

/-- 44_pipeline_diag.md R106: the example of PX.BRX, on an unconstructed unit. -/
theorem test_px_brx :
    (nextOf (exec .pxBrx (skPending Sk.reset 0x22 0 0 0 0x0123456789ABCDEF))).map
        (fun t => (t.sk.pxOut, memRead t 0x108 .b8)) = some (0xF69090F66F09096F, 0x2) := by
  decide +kernel

/-! ## The bus and the protocol -/

/-- Vectors E18 and E19: the second command is dropped and sets OVERRUN, and bit 16 clears it. -/
theorem test_overrun :
    (((nextOf (step (listing (skPending skB 0x13 0 0 0 0) [.write 1 0x100 .b8 0x13]))).map
      fun t => memRead t 0x108 .b8) = some 0x10009) ∧
    memRead (memWrite { State.reset with sk := { Sk.reset with status := overrunStatus Status.reset } }
      0x108 .b8 0xFFFFFFFFFFFEFFFF) 0x108 .b8 = 0x10000 ∧
    memRead (memWrite { State.reset with sk := { Sk.reset with status := overrunStatus Status.reset } }
      0x108 .b8 0x10000) 0x108 .b8 = 0 := by
  decide +kernel

/-- Vectors E21, E22, E23 and E24. -/
theorem test_ignored_accesses :
    memWrite State.reset 0x000 .b4 0x00100003 = State.reset ∧ memWrite State.reset 0x004 .b8 0x100003 = State.reset ∧
    memWrite State.reset 0x020 .b8 7 = State.reset ∧ memWrite State.reset 0x198 .b8 7 = State.reset ∧
    memRead (hmPending 1 2 true true 3 4) 0x000 .b8 = 0 ∧ memRead State.reset 0xFFF8 .b8 = 0 := by
  decide +kernel

/-- Table V-KEYWIN in the style of vector HM-4: the key `E787ECE50BD81D07` read through the window, and nothing beyond. -/
theorem test_key_window :
    memRead keyed 0x10000 .b1 = 0x45 ∧ memRead keyed 0x10002 .b2 = 0x3738 ∧
    memRead keyed 0x10000 .b8 = 0x3545434537383745 ∧ memRead keyed 0x1000F .b1 = 0x37 ∧
    memRead keyed 0x10010 .b8 = 0 ∧ memRead keyed 0x10001 .b2 = 0 ∧ memRead keyed 0x1FFF8 .b8 = 0 ∧
    memRead keyed 0x008 .b8 = 0x1A := by
  decide +kernel

/-- Vectors E25 and E26: reset discards an accepted command; an operand is the one snapshotted at acceptance. -/
theorem test_reset_and_snapshot :
    nextOf (step (listing (hmPending 0x100003 0 true true 3 4) [.reset])) = some State.reset ∧
    (steps 4 (listing State.reset [.write 1 0x110 .b8 5, .write 1 0x100 .b8 0x11, .write 2 0x110 .b8 9,
      .complete .sk])).sk.master = 5 := by
  decide +kernel

/-! ## Witnesses: each hypothesis of an obligation can be met, at the boundary values of its clauses -/

/-- A machine whose two units hold the given command words. -/
def bothPending (h k : Word) : State :=
  { State.reset with
    hm := { Hm.reset with pend := some { cmd := h, seedIn := 3 }, status := busyStatus true }
    sk := { skB with pend := some { cmd := k, keyIn := 5, min := 1, max := 6, pxIn := 7 }, status := busyStatus true } }

/-- For IllegalWordsAreListedAndCompleteWithCodeThree: a BUSY unit whose next event is the completion of an illegal word, on
each unit; and an illegal word of each other kind. -/
theorem test_witness_illegal_word :
    ((listing (bothPending 0x100000000 0x10011) [.complete .hm]).events = .complete .hm :: [] ∧
      unitBusy .hm (listing (bothPending 0x100000000 0x10011) [.complete .hm]) = true ∧
      latchedWord .hm (listing (bothPending 0x100000000 0x10011) [.complete .hm]) = some 0x100000000 ∧
      decode .hm 0x100000000 = .error .reservedHigh) ∧
    ((listing (bothPending 0x100000000 0x10011) [.complete .sk]).events = .complete .sk :: [] ∧
      unitBusy .sk (listing (bothPending 0x100000000 0x10011) [.complete .sk]) = true ∧
      latchedWord .sk (listing (bothPending 0x100000000 0x10011) [.complete .sk]) = some 0x10011 ∧
      decode .sk 0x10011 = .error .immediate) ∧
    decode .hm 0x04 = .error .opcode ∧ decode .sk 0x15 = .error .opcode ∧ decode .sk 0x111 = .error .reservedSub := by
  decide +kernel

/-- For StepRunsTheDecodedCommand: a BUSY unit whose next event is the completion of a legal word, on each unit; and for
FetchedWordRunsInTheNextStep: a word of each unit, one shorter than 64 bits. -/
theorem test_witness_step_runs_the_command :
    ((listing (bothPending 0x100003 0x13) [.complete .hm]).events = .complete .hm :: [] ∧
      unitBusy .hm (listing (bothPending 0x100003 0x13) [.complete .hm]) = true ∧
      latchedWord .hm (listing (bothPending 0x100003 0x13) [.complete .hm]) = some 0x100003 ∧
      decode .hm 0x100003 = .ok (.hmGen 16)) ∧
    ((listing (bothPending 0x100003 0x13) [.complete .sk]).events = .complete .sk :: [] ∧
      unitBusy .sk (listing (bothPending 0x100003 0x13) [.complete .sk]) = true ∧
      latchedWord .sk (listing (bothPending 0x100003 0x13) [.complete .sk]) = some 0x13 ∧
      decode .sk 0x13 = .ok .skRaw) ∧
    decodeTableWord 32 0xFFFF0003 = some (.hmGen 65535) ∧ decodeTableWord 64 0x22 = some .pxBrx := by
  decide +kernel

/-- For CommandWriteIsAcceptedOrDropped, OperandWriteStoresTheValue, StatusWriteClearsOverrunOnly, OtherWritesAreIgnored and
ReadsHaveNoSideEffect: the first event at each offset, on an idle and on a BUSY unit. -/
theorem test_witness_accesses :
    (([0x000, 0x100, 0x010, 0x110, 0x128, 0x130, 0x140, 0x008, 0x108] : List Offset).all fun o =>
      (listing State.reset [.write 1 o .b8 5]).events = .write 1 o .b8 5 :: [] ∧
      (listing (bothPending 1 0x11) [.write 1 o .b8 5]).events = .write 1 o .b8 5 :: []) = true ∧
    (([0x004, 0x018, 0x0F8, 0x138, 0x1F8, 0x200, 0xFFF8, 0x10000, 0x1FFFF] : List Offset).all fun o =>
      o.toNat ∉ [0x000, 0x008, 0x010, 0x100, 0x108, 0x110, 0x128, 0x130, 0x140] ∧
      (listing State.reset [.write 1 o .b8 5]).events = .write 1 o .b8 5 :: []) = true ∧
    (Width.b4 ≠ Width.b8 ∧ (listing State.reset [.write 1 0x100 .b4 0x11]).events = .write 1 0x100 .b4 0x11 :: []) ∧
    (listing State.reset [.read 1 0x138 .b8]).events = .read 1 0x138 .b8 :: [] := by
  decide +kernel

/-- For RegisterReadsFollowTheMap: the offsets of the first and of the last subkey. -/
theorem test_witness_subkey_offsets :
    (0x180 : Offset).toNat = 0x180 + 8 * (0 : Fin 16).val ∧ (0x1F8 : Offset).toNat = 0x180 + 8 * (15 : Fin 16).val := by
  decide

/-- For OtherRegisterRegionReadsReturnZero: each clause at its ends. -/
theorem test_witness_zero_reads :
    (([0x060, 0x0F8, 0x150, 0x178, 0x200, 0xFFF8] : List Offset).all fun o => o.toNat < 0x10000 ∧
      ((0x060 ≤ o.toNat ∧ o.toNat ≤ 0x0F8) ∨ (0x150 ≤ o.toNat ∧ o.toNat ≤ 0x178) ∨ 0x200 ≤ o.toNat)) = true ∧
    ((0xFFFF : Offset).toNat < 0x10000 ∧ (0xFFFF : Offset).toNat % 8 ≠ 0) ∧ Width.b4 ≠ Width.b8 ∧
    memRead keyed 0x018 .b4 = 0 ∧ memRead keyed 0x01C .b8 = 0 := by
  decide +kernel

/-- For StatusBitsAreThoseOfTheTable: the ends of the reserved ranges in a STATUS with every field set. -/
theorem test_witness_reserved_status_bits :
    ∀ i ∈ [5, 7, 12, 15, 17, 63], ((5 ≤ i ∧ i ≤ 7) ∨ (12 ≤ i ∧ i ≤ 15) ∨ (17 ≤ i ∧ i ≤ 63)) ∧
      (statusWord { busy := true, done := true, init := true, errcode := 15, overrun := true } true).getLsbD i = false := by
  decide

/-- For KeyWindowReadsAreLittleEndianCharacters: both ends of the window, aligned and misaligned; and for
KeyWindowReadsZeroWithoutAKey: a state without a key. -/
theorem test_witness_key_window :
    (0x10000 ≤ (0x10000 : Offset).toNat ∧ (0x10000 : Offset).toNat % Width.b8.bytes = 0) ∧
    (0x10000 ≤ (0x1FFFF : Offset).toNat ∧ (0x1FFFF : Offset).toNat % Width.b1.bytes = 0 ∧
      (0x1FFFF : Offset).toNat % Width.b2.bytes ≠ 0) ∧
    0 < Width.b1.bytes ∧ 7 < Width.b8.bytes ∧ State.reset.hm.keylen = 0 ∧ keyed.hm.keylen = 16 := by
  decide +kernel

/-- For ResetDiscardsEverything: reset while both units are BUSY. -/
theorem test_witness_reset :
    (listing (bothPending 3 0x13) [.reset]).events = .reset :: [] ∧ unitBusy .hm (bothPending 3 0x13) = true := by
  decide +kernel

/-- For HmInitConstructsTheGenerator and HmInittDrawsTheSeed: a latched command, with and without a listed time. -/
theorem test_witness_hm_init :
    (hmPending 0x101 7 false false 0 0).hm.pend = some { cmd := 0x101, seedIn := 7 } ∧
    (hmPending 2 7 false false 0 0).timeFeed = [] ∧
    { hmPending 2 7 false false 0 0 with timeFeed := [5, 6] }.timeFeed = 5 :: [6] := by
  decide

/-- For HmGenStoresTheKey: a constructed generator, the smallest and the largest length, the largest admitted count. -/
theorem test_witness_hm_gen :
    (hmPending 0x10003 0 true false 3 (2 ^ 64 - 2)).hm.pend = some { cmd := 0x10003, seedIn := 0 } ∧
    (hmPending 0x10003 0 true false 3 (2 ^ 64 - 2)).hm.status.init = true ∧
    0 < (1 : BitVec 16).toNat ∧ 0 < (65535 : BitVec 16).toNat ∧
    (hmPending 0x10003 0 true false 3 (2 ^ 64 - 2)).hm.count.toNat < 2 ^ 64 - 1 := by
  decide +kernel

/-- For HmGenErrorsInOrder: each of its three cases. -/
theorem test_witness_hm_gen_errors :
    (hmPending 3 0 false false 0 0).hm.pend = some { cmd := 3, seedIn := 0 } ∧
    (hmPending 3 0 false false 0 0).hm.status.init = false ∧
    ((hmPending 3 0 true false 0 0).hm.status.init = true ∧ (0 : BitVec 16).toNat = 0) ∧
    ((hmPending 0x10003 0 true false 0 (2 ^ 64 - 1)).hm.status.init = true ∧ (1 : BitVec 16).toNat ≠ 0 ∧
      (hmPending 0x10003 0 true false 0 (2 ^ 64 - 1)).hm.count.toNat = 2 ^ 64 - 1) := by
  decide +kernel

/-- For SkInitDerivesTheSchedule, SkInittDerivesFromTheTime and PxBrxPermutesTheOperand: a latched command, with and without
a listed time. -/
theorem test_witness_sk_init :
    (skPending Sk.reset 0x11 5 0 0 0).sk.pend = some { cmd := 0x11, keyIn := 5, min := 0, max := 0, pxIn := 0 } ∧
    (skPending Sk.reset 0x12 5 0 0 0).timeFeed = [] ∧
    { skPending Sk.reset 0x12 5 0 0 0 with timeFeed := [999, 1000] }.timeFeed = 999 :: [1000] := by
  decide

/-- For SkRawConsumesOneSubkey, SkRangeSamplesExactly and RangeResultIsInRange: a constructed unit at the last cursor, an
unconstructed one, and bounds that are equal, the widest, and crossed. -/
theorem test_witness_sampling :
    (skPending { skB with cursor := 15 } 0x14 0 5 5 0).sk.pend =
      some { cmd := 0x14, keyIn := 0, min := 5, max := 5, pxIn := 0 } ∧
    (skPending { skB with cursor := 15 } 0x14 0 5 5 0).sk.status.init = true ∧
    (skPending Sk.reset 0x14 0 5 5 0).sk.status.init = false ∧
    (5 : Word).toInt ≤ (5 : Word).toInt ∧ (0x8000000000000000 : Word).toInt ≤ (0x7FFFFFFFFFFFFFFF : Word).toInt ∧
    (0x8000000000000000 : Word).toInt < (0x7FFFFFFFFFFFFFFF : Word).toInt ∧ (9 : Word).toInt < (10 : Word).toInt := by
  decide +kernel

/-- For PxRotlRotatesTheLowHalf: the amounts on both sides of its limit. -/
theorem test_witness_px_rotl :
    (skPending Sk.reset 0x200021 0 0 0 1).sk.pend = some { cmd := 0x200021, keyIn := 0, min := 0, max := 0, pxIn := 1 } ∧
    (32 : BitVec 16).toNat ≤ 32 ∧ (0 : BitVec 16).toNat ≤ 32 ∧ 32 < (33 : BitVec 16).toNat := by
  decide

/-- For ErrorsChangeNothingButStatus: a completion with a nonzero code, on each unit. -/
theorem test_witness_errors :
    (unitBusy .hm (bothPending 3 0x210021) = true ∧
      (nextOf (completion .hm (bothPending 3 0x210021))).map (fun t => (unitStatus .hm t).errcode) = some 1) ∧
    (unitBusy .sk (bothPending 3 0x210021) = true ∧
      (nextOf (completion .sk (bothPending 3 0x210021))).map (fun t => (unitStatus .sk t).errcode) = some 1) := by
  decide +kernel

/-- For CommandsLeaveTheOtherUnitAlone and CommandsIgnoreTheOtherUnit: a command of each unit that answers a next state. -/
theorem test_witness_other_unit :
    (∃ t, exec (.hmInit false) (bothPending 1 0x13) = .next t) ∧ (Instr.hmInit false).unit = .hm ∧
    (∃ t, exec .skRaw (bothPending 1 0x13) = .next t) ∧ Instr.skRaw.unit = .sk :=
  ⟨⟨_, rfl⟩, rfl, ⟨_, rfl⟩, rfl⟩

/-- For CompletionsOfTheUnitsCommute: both units BUSY, SK's command drawing and HM's not, and the other way round. -/
theorem test_witness_commuting :
    ((nextOf (completion .hm { bothPending 1 0x12 with timeFeed := [4] })).map State.drawCount = some 0 ∧
      (nextOf (completion .sk { bothPending 1 0x12 with timeFeed := [4] })).map State.drawCount = some 1) ∧
    ((nextOf (completion .hm { bothPending 2 0x13 with timeFeed := [4] })).map State.drawCount = some 1 ∧
      (nextOf (completion .sk { bothPending 2 0x13 with timeFeed := [4] })).map State.drawCount = some 0) := by
  decide +kernel

/-- For EveryStepKeepsConsistency, ConsistentMachineNeverStops, OnlyThreeCommandsDraw,
ResultsChangeOnlyAtSuccessfulCompletion and CursorIsACyclicCounter: a consistent machine with a key and a schedule, and a
step of it that answers a next state. -/
theorem test_witness_consistent_state :
    Consistent (listing keyed [.write 1 0x100 .b8 0x13]) ∧ LatchMatchesBusy (listing keyed [.write 1 0x100 .b8 0x13]) ∧
    (nextOf (step (listing keyed [.write 1 0x100 .b8 0x13]))).isSome = true := by
  unfold Consistent LatchMatchesBusy StatusLegal KeyRecomputable ScheduleDerived UnconstructedHm
  decide +kernel

/-- For CallCountNeverWraps: a step of each cause at the ends of the count: HM.GEN at its limit, which errs, and just below
it; a construction and a reset at the limit. -/
theorem test_witness_call_count :
    (nextOf (step (hmPending 0x10003 0 true false 3 (2 ^ 64 - 1)))).map (fun t => t.hm.count) = some (2 ^ 64 - 1) ∧
    (nextOf (step { hmPending 0x10003 0 true false 3 (2 ^ 64 - 2) with timeFeed := [0] })).map (fun t => t.hm.count) =
      some (2 ^ 64 - 1) ∧
    (nextOf (step (hmPending 1 0 true false 3 (2 ^ 64 - 1)))).map (fun t => t.hm.count) = some 0 ∧
    (nextOf (step (listing (hmPending 1 0 true false 3 (2 ^ 64 - 1)) [.reset]))).map (fun t => t.hm.count) = some 0 := by
  decide +kernel

/-- The host numbers of a platform start at 1 (60_exceptions.md R120). -/
theorem test_host_numbers :
    ¬LegalEvent (.read 0 0x008 .b8) ∧ LegalEvent (.read 1 0x008 .b8) ∧ LegalEvent (.write Config.nHosts 0x000 .b8 1) ∧
    ¬LegalEvent (.write (Config.nHosts + 1) 0x000 .b8 1) := by
  simp only [LegalEvent, LegalHost, Config.nHosts]
  omega

/-- For OnlyThreeCommandsDraw: a step of each kind, a draw while the other unit holds a drawing command too, and a write that
draws nothing. -/
theorem test_witness_draws :
    (nextOf (step { bothPending 2 0x12 with timeFeed := [4, 5], events := [.complete .hm] })).map
      (fun t => (t.drawCount, t.timeFeed, (unitStatus .hm t).done, (unitStatus .sk t).busy)) = some (1, [5], true, true) ∧
    (nextOf (step { bothPending 2 0x12 with timeFeed := [4, 5], events := [.write 1 0x010 .b8 7] })).map
      (fun t => (t.drawCount, t.timeFeed)) = some (0, [4, 5]) := by
  decide +kernel

/-- For InitIsClearedOnlyByReset: a step that clears INIT of both units. -/
theorem test_witness_init_cleared :
    (unitStatus .hm (bothPending 1 0x13)).init = true ∧ (unitStatus .sk (bothPending 1 0x13)).init = true ∧
    (nextOf (step (listing (bothPending 1 0x13) [.reset]))).map
      (fun t => ((unitStatus .hm t).init, (unitStatus .sk t).init)) = some (false, false) := by
  decide +kernel

/-- For OverrunChangesOnlyByItsRules: a step that sets OVERRUN. -/
theorem test_witness_overrun_set :
    (unitStatus .sk (bothPending 1 0x13)).overrun = false ∧
    (nextOf (step (listing (bothPending 1 0x13) [.write 1 0x100 .b8 0x13]))).map
      (fun t => (unitStatus .sk t).overrun) = some true := by
  decide +kernel

/-- For OverrunChangesOnlyByItsRules: a step that clears OVERRUN. -/
theorem test_witness_overrun_cleared :
    (unitStatus .hm { State.reset with hm := { Hm.reset with status := overrunStatus Status.reset } }).overrun = true ∧
    (nextOf (step { State.reset with
        hm := { Hm.reset with status := overrunStatus Status.reset }
        events := [.write 1 0x008 .b8 0x10000] })).map (fun t => (unitStatus .hm t).overrun) = some false := by
  decide +kernel

/-- For RawSamplingReadsTheScheduleRoundRobin: a constructed idle unit and 17 samples. -/
theorem test_witness_raw_sampling :
    (listing { State.reset with sk := skB } (rawSampling 1 17)).events = rawSampling 1 17 ∧
    skB.status.busy = false ∧ skB.status.init = true := by
  decide +kernel

/-- For RawValueAtCursorZeroIsZero: a consistent constructed unit at cursor 0 with a latched ranged sample. -/
theorem test_witness_cursor_zero :
    Consistent (skPending skB 0x14 0 1 6 0) ∧ (skPending skB 0x14 0 1 6 0).sk.status.init = true ∧
    (skPending skB 0x14 0 1 6 0).sk.cursor = 0 ∧
    (skPending skB 0x14 0 1 6 0).sk.pend = some { cmd := 0x14, keyIn := 0, min := 1, max := 6, pxIn := 0 } ∧
    (1 : Word).toInt ≤ (6 : Word).toInt := by
  unfold Consistent LatchMatchesBusy StatusLegal KeyRecomputable ScheduleDerived UnconstructedHm
  decide +kernel

/-- A constructed idle unit at cursor 1, with the events of the DICE program of host 1 in the order of the turns. -/
def rolling (turns : List Turn) : State :=
  listing { State.reset with sk := { skB with cursor := 1 } }
    (programEvents turns ((programOps 1 (expandPseudo .dice)).getD []) { State.reset with sk := { skB with cursor := 1 } }).1

/-- Two polls, with an access of host 2 to HM and an idle completion of HM among them. -/
def patientTurns : List Turn :=
  List.replicate 3 .host ++
    [.other (.complete .hm), .host, .other (.write 2 0x010 .b8 7), .host, .other (.complete .sk), .host, .host]

/-- The completion comes before WAIT, which then reads once. -/
def promptTurns : List Turn :=
  List.replicate 3 .host ++ [.other (.complete .sk), .other (.read 2 0x138 .b8), .host, .host]

/-- For DiceProgramReadsOneToSix: a finished program whose completion comes late, and one where it comes early; the state
before it; and vector S12 at cursor 1. -/
theorem test_witness_dice :
    (programOps 1 (expandPseudo .dice)).isSome = true ∧
    (LatchMatchesBusy (rolling patientTurns) ∧ (rolling patientTurns).sk.status.busy = false ∧
      (rolling patientTurns).sk.status.init = true) ∧
    programEvents patientTurns ((programOps 1 (expandPseudo .dice)).getD []) (rolling patientTurns) =
      ((rolling patientTurns).events, []) ∧
    programEvents promptTurns ((programOps 1 (expandPseudo .dice)).getD []) (rolling promptTurns) =
      ((rolling promptTurns).events, []) ∧
    (steps 10 (rolling patientTurns)).readLog.getLast?.map Reading.value = some 4 := by
  unfold LatchMatchesBusy
  decide +kernel

/-- For DiceProgramReadsOneToSix: the other agents' events of these turns leave SK to host 1. -/
theorem test_witness_dice_turns :
    LeavesSkTo 1 (.complete .hm) ∧ LeavesSkTo 1 (.complete .sk) ∧ LeavesSkTo 1 (.write 2 0x010 .b8 7) ∧
    LeavesSkTo 1 (.read 2 0x138 .b8) ∧ ¬LeavesSkTo 1 (.write 2 0x100 .b8 0x13) ∧ ¬LeavesSkTo 1 .reset := by
  simp [LeavesSkTo]

/-- 30_encoding.md R71: WAIT on an idle unit is one read of STATUS, and on a BUSY one it goes on. -/
theorem test_wait :
    programEvents [.host, .host] [.poll 1 .sk] State.reset = ([.read 1 0x108 .b8], []) ∧
    programEvents [.host, .host] [.poll 1 .sk] (bothPending 1 0x13) =
      ([.read 1 0x108 .b8, .read 1 0x108 .b8], [.poll 1 .sk]) := by
  decide +kernel

/-- For EngineIsQuiescentInTwoTurns: both units BUSY and nothing listed. -/
theorem test_witness_quiescence :
    LatchMatchesBusy (bothPending 1 0x13) ∧ (bothPending 1 0x13).events = [] := by
  unfold LatchMatchesBusy
  decide +kernel

/-- 70_reset_and_hazards.md R133: an idle machine is quiescent with a reset still to come, and not with a host access; a
BUSY one is not. -/
theorem test_quiescent :
    Quiescent (listing State.reset [.reset, .complete .hm]) ∧ ¬Quiescent (listing State.reset [.reset, .read 1 0x008 .b8]) ∧
    ¬Quiescent (bothPending 1 0x13) := by
  unfold Quiescent HostsFinished
  decide +kernel

/-- For RotationMovesEveryBit, BitReversalMirrorsEveryBit, AvalancheMixIsInjective, KeyPipelineStaysInItsWidths and
DerivationHasTheClosedForm: their numeric bounds, and the length bounds of HexTextReadsBack and ShaPaddingFillsWholeBlocks,
at the ends. -/
theorem test_witness_bounds :
    (32 ≤ 32 ∧ 31 < 32) ∧ 63 < 64 ∧ 2 ^ 256 - 1 < 2 ^ 256 ∧ (2 ^ 64 - 2 ≤ 2 ^ 64 - 2) ∧ 1 + 30 < 32 ∧
    (hexU (2 ^ 252)).length = 64 ∧ (hexU (2 ^ 252 - 1)).length = 63 ∧
    (shaPad (List.replicate 55 0x31)).length = 64 ∧ (shaPad (List.replicate 56 0x31)).length = 128 ∧
    (shaPad (List.replicate 80 0x31)).length = 128 := by
  decide +kernel

/-- For DecimalTextReadsBack and HexTextReadsBack: the smallest positive number. -/
theorem test_witness_positive : 0 < 1 ∧ dec 1 = [0x31] ∧ dec (-1) = [0x2D, 0x31] ∧ hexU 1 = [0x31] := by
  decide

/-- For BitReverseXorGivesPalindromes and DerivationCornerCases: the rotated lanes of the two degenerate keys of
42_subkey_schedule.md R95 are palindromes, in the first and in the last round. -/
theorem test_witness_palindromes :
    Palindrome (rotl32 ((0 : Word).extractLsb' 32 32) cumulativeShift[0] ++
      rotl32 ((0 : Word).extractLsb' 0 32) cumulativeShift[0] : BitVec 64) ∧
    Palindrome (rotl32 ((0xFFFFFFFFFFFFFFFF : Word).extractLsb' 32 32) cumulativeShift[15] ++
      rotl32 ((0xFFFFFFFFFFFFFFFF : Word).extractLsb' 0 32) cumulativeShift[15] : BitVec 64) ∧
    (brx64 1).extractLsb' 0 32 = (brx64 0x8000000000000000).extractLsb' 0 32 := by
  unfold Palindrome
  decide +kernel

/-- For SuccessfulGenerationProperties: a generation that completes with OK, and the offsets of the first and the last
character, the byte after them and the end of the window. -/
theorem test_witness_generation :
    (nextOf (exec (.hmGen 16) { hmPending 0x100003 0 true false 0 0 with timeFeed := [0] })).map
      (fun t => t.hm.status.errcode) = some 0 ∧
    (0x10000 : Offset).toNat = 0x10000 + 0 ∧ (0x1000F : Offset).toNat = 0x10000 + 15 ∧ 15 < (16 : BitVec 16).toNat ∧
    (0x10010 : Offset).toNat = 0x10000 + 16 ∧ (16 : BitVec 16).toNat ≤ 16 ∧ (0x1FFFF : Offset).toNat = 0x10000 + 65535 := by
  decide +kernel

end Sys2Proof.Tests
end

/-! The two units are independent (00_scope.md R4, 60_exceptions.md R120): a command belongs to one unit, and it neither
writes nor reads the other. Not reading is stated as commutation: `exec` commutes with the replacement of the other unit,
and so the fault of an empty latch is covered as well as the next states. -/

namespace Sys2Proof.Scope

open Sys2Proof.Machine Sys2Proof.Laws

/-- The outcome with its next state, if there is one, changed by `f`. -/
def mapNext (f : State → State) : Result → Result
  | .next s => .next (f s)
  | .fault r => .fault r
  | .refused r => .refused r

@[simp] theorem mapNext_next (f : State → State) (s : State) : mapNext f (.next s) = .next (f s) := rfl
@[simp] theorem mapNext_fault (f : State → State) (r : Fault) : mapNext f (.fault r) = .fault r := rfl

/-! ### A command does not read the other unit -/

/-- Fetching HM's latch commutes with another SK unit when the body does. -/
theorem withHmLatch_withSk (s : State) (k : Sk) {body body' : HmLatch → Result}
    (hbody : ∀ p, body' p = mapNext (·.withSk k) (body p)) :
    withHmLatch (s.withSk k) body' = mapNext (·.withSk k) (withHmLatch s body) := by
  cases hp : s.hm.pend with
  | none => simp [hp]
  | some p => simp [hp, hbody]

/-- Fetching SK's latch commutes with another HM unit when the body does. -/
theorem withSkLatch_withHm (s : State) (h : Hm) {body body' : SkLatch → Result}
    (hbody : ∀ p, body' p = mapNext (·.withHm h) (body p)) :
    withSkLatch (s.withHm h) body' = mapNext (·.withHm h) (withSkLatch s body) := by
  cases hp : s.sk.pend with
  | none => simp [hp]
  | some p => simp [hp, hbody]

/-- An HM command commutes with another SK unit. Only HM.GEN branches, and its conditions read HM alone. -/
theorem exec_withSk {i : Instr} (hu : i.unit = .hm) (s : State) (k : Sk) :
    exec i (s.withSk k) = mapNext (·.withSk k) (exec i s) := by
  cases i with
  | hmInit signed | hmInitt => exact withHmLatch_withSk s k fun _ => rfl
  | hmGen len =>
    refine withHmLatch_withSk s k fun _ => ?_
    simp only [apply_ite (mapNext _)]
    rfl
  | _ => cases hu

/-- An SK command commutes with another HM unit. SK.RAW, SK.RANGE and PX.ROTL branch, on SK and the latch alone. -/
theorem exec_withHm {i : Instr} (hu : i.unit = .sk) (s : State) (h : Hm) :
    exec i (s.withHm h) = mapNext (·.withHm h) (exec i s) := by
  cases i with
  | skInit | skInitt | pxBrx => exact withSkLatch_withHm s h fun _ => rfl
  | skRaw | skRange | pxRotl shamt =>
    refine withSkLatch_withHm s h fun _ => ?_
    simp only [apply_ite (mapNext _)]
    rfl
  | _ => cases hu

/-- Settles O31: `exec` commutes with the replacement of the other unit, at an answered next state. -/
theorem commandsIgnoreTheOtherUnit : Obligations.CommandsIgnoreTheOtherUnit := by
  unfold Obligations.CommandsIgnoreTheOtherUnit
  constructor
  · intro i s t k hu hexec
    have hcomm := exec_withSk hu s k
    rwa [hexec] at hcomm
  · intro i s t h hu hexec
    have hcomm := exec_withHm hu s h
    rwa [hexec] at hcomm

/-! ### A command does not write the other unit -/

/-- Settles O30, along the three things a command can do: an error, a success on HM, a success on SK. Each ends in
`complete` of the command's own unit, and before it at most a draw, which leaves both units alone. -/
theorem commandsLeaveTheOtherUnitAlone : Obligations.CommandsLeaveTheOtherUnitAlone := by
  unfold Obligations.CommandsLeaveTheOtherUnitAlone
  intro i s t hexec
  rcases exec_next hexec with ⟨c, -, rfl⟩ | ⟨hu, s', h', hdraw, -, -, -, rfl⟩ | ⟨hu, s', k', hdraw, -, -, -, rfl⟩
  · cases hu : i.unit <;> simp
  · obtain rfl | ⟨rfl, -⟩ := hdraw <;> simp [hu]
  · obtain rfl | ⟨rfl, -⟩ := hdraw <;> simp [hu]

end Sys2Proof.Scope

/-! What one step can do to one unit, said once (20_memory.md R54). A step of the whole machine is an event or a turn of
the engine; seen from one unit it is one of a few moves, each with its cause and its exact effect. The invariants of
10_state.md are case analyses over these moves. -/

namespace Sys2Proof.Moves

open Sys2Proof.Machine Sys2Proof.Laws Sys2Proof.Safety

/-! ### The moves -/

/-- HM after `complete(c)` (10_state.md R39). -/
def completedHm (h : Hm) (c : ErrCode) : Hm := { h with pend := none, status := completeStatus h.status c }

/-- SK after `complete(c)` (10_state.md R39). -/
def completedSk (k : Sk) (c : ErrCode) : Sk := { k with pend := none, status := completeStatus k.status c }

@[simp] theorem complete_hm_hm (c : ErrCode) (s : State) : (complete .hm c s).hm = completedHm s.hm c := rfl
@[simp] theorem complete_sk_sk (c : ErrCode) (s : State) : (complete .sk c s).sk = completedSk s.sk c := rfl

/-- The ways a step, taken with the events `es` to come, can change the HM unit `h`. -/
inductive HmMove (es : List Event) (h : Hm) : Hm → Prop
  /-- the step is not about HM, or does nothing to it -/
  | kept : HmMove es h h
  /-- reset (70_reset_and_hazards.md R123) -/
  | reset {rest} (he : es = .reset :: rest) : HmMove es h Hm.reset
  /-- a command write that a BUSY unit drops (R38) -/
  | dropped {host v rest} (he : es = .write host (regOffset .hmCmd) .b8 v :: rest) (hb : h.status.busy = true) :
      HmMove es h { h with status := overrunStatus h.status }
  /-- a command write that an idle unit accepts (R38) -/
  | accepted {host v rest} (he : es = .write host (regOffset .hmCmd) .b8 v :: rest) (hb : h.status.busy = false) :
      HmMove es h { h with pend := some (hmSnapshot h v), status := acceptStatus h.status }
  /-- a write to HM_STATUS (R32) -/
  | written {host v rest} (he : es = .write host (regOffset .hmStatus) .b8 v :: rest) :
      HmMove es h { h with status := writeStatus h.status v }
  /-- a write to HM_SEED_IN (R24) -/
  | operand (v : Word) : HmMove es h { h with seedIn := v }
  /-- a completion with an error (60_exceptions.md R108) -/
  | failed {c} (hb : h.status.busy = true) (hc : c ≠ .ok) : HmMove es h (completedHm h c)
  /-- HM.INIT or HM.INITT (41_hash_mix.md R87, R88) -/
  | constructed {w i} (seed : Word) (signed : Bool) (hb : h.status.busy = true)
      (hw : h.pend.map HmLatch.cmd = some w) (hd : decode .hm w = .ok i)
      (hi : i = .hmInitt ∨ ∃ signed, i = .hmInit signed) :
      HmMove es h (completedHm (constructHm h seed signed) .ok)
  /-- HM.GEN with OK (41_hash_mix.md R89) -/
  | generated {w len} (t : Word) (hb : h.status.busy = true) (hw : h.pend.map HmLatch.cmd = some w)
      (hd : decode .hm w = .ok (.hmGen len)) (hinit : h.status.init = true) (hlen : len ≠ 0)
      (hcount : uint h.count ≠ 2 ^ 64 - 1) : HmMove es h (completedHm (storeKey h len t) .ok)

/-- The ways a step, taken with the events `es` to come, can change the SK unit `k`. -/
inductive SkMove (es : List Event) (k : Sk) : Sk → Prop
  /-- the step is not about SK, or does nothing to it -/
  | kept : SkMove es k k
  /-- reset (70_reset_and_hazards.md R123) -/
  | reset {rest} (he : es = .reset :: rest) : SkMove es k Sk.reset
  /-- a command write that a BUSY unit drops (R38) -/
  | dropped {host v rest} (he : es = .write host (regOffset .skCmd) .b8 v :: rest) (hb : k.status.busy = true) :
      SkMove es k { k with status := overrunStatus k.status }
  /-- a command write that an idle unit accepts (R38) -/
  | accepted {host v rest} (he : es = .write host (regOffset .skCmd) .b8 v :: rest) (hb : k.status.busy = false) :
      SkMove es k { k with pend := some (skSnapshot k v), status := acceptStatus k.status }
  /-- a write to SK_STATUS (R32) -/
  | written {host v rest} (he : es = .write host (regOffset .skStatus) .b8 v :: rest) :
      SkMove es k { k with status := writeStatus k.status v }
  /-- a write to an operand register (R29, R30) -/
  | operand (keyIn min max pxIn : Word) : SkMove es k { k with keyIn := keyIn, min := min, max := max, pxIn := pxIn }
  /-- a completion with an error (60_exceptions.md R108) -/
  | failed {c} (hb : k.status.busy = true) (hc : c ≠ .ok) : SkMove es k (completedSk k c)
  /-- SK.INIT or SK.INITT (42_subkey_schedule.md R97, R98) -/
  | constructed {w i} (mk : Word) (hb : k.status.busy = true) (hw : k.pend.map SkLatch.cmd = some w)
      (hd : decode .sk w = .ok i) (hi : i = .skInit ∨ i = .skInitt) :
      SkMove es k (completedSk (constructSk k mk) .ok)
  /-- SK.RAW or SK.RANGE with OK (43_sampling.md R99, R100) -/
  | consumed {w i} (result : Word) (hb : k.status.busy = true) (hw : k.pend.map SkLatch.cmd = some w)
      (hd : decode .sk w = .ok i) (hi : i = .skRaw ∨ i = .skRange) (hinit : k.status.init = true) :
      SkMove es k (completedSk (consumeSubkey k result) .ok)
  /-- PX.ROTL or PX.BRX with OK (44_pipeline_diag.md R105, R106) -/
  | piped {w i} (out : Word) (hb : k.status.busy = true) (hw : k.pend.map SkLatch.cmd = some w)
      (hd : decode .sk w = .ok i) (hi : i = .pxBrx ∨ ∃ shamt, i = .pxRotl shamt) :
      SkMove es k (completedSk { k with pxOut := out } .ok)

/-! ### Every step is a move of each unit -/

/-- A unit decodes its own commands only (30_encoding.md R63). -/
theorem unit_of_decode {u : UnitId} {w : Word} {i : Instr} (h : decode u w = .ok i) : i.unit = u := by
  unfold decode at h
  split at h
  · cases h
  · cases u with
    | hm =>
      unfold decodeHm at h
      split_ifs at h <;> simp only [initForm_eq_ok, plainForm_eq_ok, immForm_eq_ok] at h
      all_goals obtain ⟨-, -, rfl⟩ := h; rfl
    | sk =>
      unfold decodeSk at h
      split_ifs at h <;> simp only [plainForm_eq_ok, immForm_eq_ok] at h
      all_goals obtain ⟨-, -, rfl⟩ := h; rfl

/-- An HM command that a BUSY HM unit runs is a move of HM. -/
theorem exec_hmMove (es : List Event) {w : Word} {i : Instr} {s t : State} (hb : s.hm.status.busy = true)
    (hw : latchedWord .hm s = some w) (hd : decode .hm w = .ok i) (h : exec i s = .next t) : HmMove es s.hm t.hm := by
  have hu := unit_of_decode hd
  cases i with
  | hmInit signed =>
    obtain ⟨p, -, rfl⟩ := execHmInit_next h
    exact .constructed _ _ hb hw hd (.inr ⟨signed, rfl⟩)
  | hmInitt =>
    obtain ⟨p, -, rfl⟩ := execHmInitt_next h
    exact .constructed _ _ hb hw hd (.inl rfl)
  | hmGen len =>
    obtain ⟨p, -, ⟨-, rfl⟩ | ⟨-, -, rfl⟩ | ⟨-, -, -, rfl⟩ | ⟨hinit, hlen, hcount, rfl⟩⟩ := execHmGen_next h
    · exact .failed hb (by decide)
    · exact .failed hb (by decide)
    · exact .failed hb (by decide)
    · exact .generated _ hb hw hd hinit hlen hcount
  | _ => cases hu

/-- An SK command that a BUSY SK unit runs is a move of SK. -/
theorem exec_skMove (es : List Event) {w : Word} {i : Instr} {s t : State} (hb : s.sk.status.busy = true)
    (hw : latchedWord .sk s = some w) (hd : decode .sk w = .ok i) (h : exec i s = .next t) : SkMove es s.sk t.sk := by
  have hu := unit_of_decode hd
  cases i with
  | skInit =>
    obtain ⟨p, -, rfl⟩ := execSkInit_next h
    exact .constructed _ hb hw hd (.inl rfl)
  | skInitt =>
    obtain ⟨p, -, rfl⟩ := execSkInitt_next h
    exact .constructed _ hb hw hd (.inr rfl)
  | skRaw =>
    obtain ⟨p, -, ⟨-, rfl⟩ | ⟨hinit, rfl⟩⟩ := execSkRaw_next h
    · exact .failed hb (by decide)
    · exact .consumed _ hb hw hd (.inl rfl) hinit
  | skRange =>
    obtain ⟨p, -, ⟨-, rfl⟩ | ⟨-, -, rfl⟩ | ⟨hinit, -, rfl⟩⟩ := execSkRange_next h
    · exact .failed hb (by decide)
    · exact .failed hb (by decide)
    · exact .consumed _ hb hw hd (.inr rfl) hinit
  | pxRotl shamt =>
    obtain ⟨p, -, ⟨-, rfl⟩ | ⟨-, rfl⟩⟩ := execPxRotl_next h
    · exact .failed hb (by decide)
    · exact .piped _ hb hw hd (.inr ⟨shamt, rfl⟩)
  | pxBrx =>
    obtain ⟨p, -, rfl⟩ := execPxBrx_next h
    exact .piped _ hb hw hd (.inl rfl)
  | _ => cases hu

/-- A completion of either unit is a move of HM. -/
theorem completion_hmMove (es : List Event) {u : UnitId} {s t : State} (h : completion u s = .next t) :
    HmMove es s.hm t.hm := by
  rcases completion_next h with ⟨-, rfl⟩ | ⟨w, i, hb, hw, hd, hexec⟩ | ⟨w, e, hb, -, -, rfl⟩
  · exact .kept
  · cases u with
    | hm => exact exec_hmMove es hb hw hd hexec
    | sk =>
      have hkept := (Scope.commandsLeaveTheOtherUnitAlone i s t hexec).2.1 (unit_of_decode hd)
      exact hkept ▸ .kept
  · cases u with
    | hm => exact .failed hb (by decide)
    | sk => exact .kept

/-- A completion of either unit is a move of SK. -/
theorem completion_skMove (es : List Event) {u : UnitId} {s t : State} (h : completion u s = .next t) :
    SkMove es s.sk t.sk := by
  rcases completion_next h with ⟨-, rfl⟩ | ⟨w, i, hb, hw, hd, hexec⟩ | ⟨w, e, hb, -, -, rfl⟩
  · exact .kept
  · cases u with
    | hm =>
      have hkept := (Scope.commandsLeaveTheOtherUnitAlone i s t hexec).1 (unit_of_decode hd)
      exact hkept ▸ .kept
    | sk => exact exec_skMove es hb hw hd hexec
  · cases u with
    | hm => exact .kept
    | sk => exact .failed hb (by decide)

/-- A write to the register region is a move of HM. -/
theorem writeReg_hmMove {host : Nat} {o : Offset} {v : Word} {rest : List Event} {r : Reg} (hr : regAt o = some r)
    (s : State) : HmMove (.write host o .b8 v :: rest) s.hm (writeReg s v r).hm := by
  rw [← regOffset_of_regAt hr]
  cases r with
  | hmCmd =>
    by_cases hb : s.hm.status.busy = true
    · simpa [writeReg, acceptHm_busy _ _ hb] using .dropped rfl hb
    · rw [Bool.not_eq_true] at hb
      simpa [writeReg, acceptHm_idle _ _ hb] using .accepted rfl hb
  | hmStatus => exact .written rfl
  | hmSeedIn => exact .operand v
  | _ => exact .kept

/-- A write to the register region is a move of SK. -/
theorem writeReg_skMove {host : Nat} {o : Offset} {v : Word} {rest : List Event} {r : Reg} (hr : regAt o = some r)
    (s : State) : SkMove (.write host o .b8 v :: rest) s.sk (writeReg s v r).sk := by
  rw [← regOffset_of_regAt hr]
  cases r with
  | skCmd =>
    by_cases hb : s.sk.status.busy = true
    · simpa [writeReg, acceptSk_busy _ _ hb] using .dropped rfl hb
    · rw [Bool.not_eq_true] at hb
      simpa [writeReg, acceptSk_idle _ _ hb] using .accepted rfl hb
  | skStatus => exact .written rfl
  | skKeyIn => exact .operand v s.sk.min s.sk.max s.sk.pxIn
  | skMin => exact .operand s.sk.keyIn v s.sk.max s.sk.pxIn
  | skMax => exact .operand s.sk.keyIn s.sk.min v s.sk.pxIn
  | pxIn => exact .operand s.sk.keyIn s.sk.min s.sk.max v
  | _ => exact .kept

/-- Every step is a move of HM. -/
theorem step_hmMove {s t : State} (h : step s = .next t) : HmMove s.events s.hm t.hm := by
  rcases step_next h with ⟨-, hturn⟩ | ⟨host, o, w, rest, -, rfl⟩ | ⟨host, o, w, v, rest, he, rfl⟩ |
    ⟨u, rest, -, hcompl⟩ | ⟨rest, he, rfl⟩
  · rcases engineTurn_next hturn with ⟨-, -, rfl⟩ | ⟨u, n, -, hcompl⟩
    · exact .kept
    · have hmove := completion_hmMove s.events hcompl
      exact hmove
  · exact .kept
  · rcases memWrite_cases { s with events := rest } o w v with hkept | ⟨r, rfl, hr, hwrite⟩
    · rw [hkept]
      exact .kept
    · rw [he, hwrite]
      exact writeReg_hmMove hr { s with events := rest }
  · have hmove := completion_hmMove s.events hcompl
    exact hmove
  · exact .reset he

/-- Every step is a move of SK. -/
theorem step_skMove {s t : State} (h : step s = .next t) : SkMove s.events s.sk t.sk := by
  rcases step_next h with ⟨-, hturn⟩ | ⟨host, o, w, rest, -, rfl⟩ | ⟨host, o, w, v, rest, he, rfl⟩ |
    ⟨u, rest, -, hcompl⟩ | ⟨rest, he, rfl⟩
  · rcases engineTurn_next hturn with ⟨-, -, rfl⟩ | ⟨u, n, -, hcompl⟩
    · exact .kept
    · have hmove := completion_skMove s.events hcompl
      exact hmove
  · exact .kept
  · rcases memWrite_cases { s with events := rest } o w v with hkept | ⟨r, rfl, hr, hwrite⟩
    · rw [hkept]
      exact .kept
    · rw [he, hwrite]
      exact writeReg_skMove hr { s with events := rest }
  · have hmove := completion_skMove s.events hcompl
    exact hmove
  · exact .reset he

/-! ### The moves of a STATUS register, which are the same in both units -/

/-- The ways a step, taken with the events `es` to come, can change the STATUS `st` of unit `u` (10_state.md R32, R38,
R39). -/
inductive StatusMove (u : UnitId) (es : List Event) (st : Status) : Status → Prop
  | kept : StatusMove u es st st
  | reset {rest} (he : es = .reset :: rest) : StatusMove u es st Status.reset
  | dropped {host v rest} (he : es = .write host (regOffset (cmdReg u)) .b8 v :: rest) (hb : st.busy = true) :
      StatusMove u es st (overrunStatus st)
  | accepted : StatusMove u es st (acceptStatus st)
  | written {host v rest} (he : es = .write host (regOffset (statusReg u)) .b8 v :: rest) :
      StatusMove u es st (writeStatus st v)
  | completed (c : ErrCode) : StatusMove u es st (completeStatus st c)
  | constructed : StatusMove u es st (completeStatus (initStatus st) .ok)

/-- A move of HM, seen from HM_STATUS. -/
theorem HmMove.statusMove {es : List Event} {h h' : Hm} (m : HmMove es h h') :
    StatusMove .hm es h.status h'.status := by
  cases m with
  | kept | operand => exact .kept
  | reset he => exact .reset he
  | dropped he hb => exact .dropped he hb
  | accepted => exact .accepted
  | written he => exact .written he
  | failed | generated => exact .completed _
  | constructed => exact .constructed

/-- A move of SK, seen from SK_STATUS. -/
theorem SkMove.statusMove {es : List Event} {k k' : Sk} (m : SkMove es k k') :
    StatusMove .sk es k.status k'.status := by
  cases m with
  | kept | operand => exact .kept
  | reset he => exact .reset he
  | dropped he hb => exact .dropped he hb
  | accepted => exact .accepted
  | written he => exact .written he
  | failed | consumed | piped => exact .completed _
  | constructed => exact .constructed

/-- Every step is a move of each unit's STATUS. -/
theorem step_statusMove (u : UnitId) {s t : State} (h : step s = .next t) :
    StatusMove u s.events (unitStatus u s) (unitStatus u t) := by
  cases u with
  | hm => exact (step_hmMove h).statusMove
  | sk => exact (step_skMove h).statusMove

end Sys2Proof.Moves

/-! The statements about the engine's state (10_state.md): its registers right after reset, what a step does on an event
that names a register, and what every step keeps. -/

namespace Sys2Proof.StateRules

open Sys2Proof.Machine Sys2Proof.Laws Sys2Proof.Safety Sys2Proof.Moves

/-! ### STATUS keeps its rules (10_state.md R31, R32) -/

theorem statusLegal_reset : StatusLegal Status.reset := ⟨nofun, by decide⟩

/-- The codes a completion posts are 0 to 4 (60_exceptions.md R107). -/
theorem codeBits_le (c : ErrCode) : (codeBits c).toNat ≤ 4 := by cases c <;> decide

theorem statusLegal_completeStatus (st : Status) (c : ErrCode) : StatusLegal (completeStatus st c) :=
  ⟨nofun, codeBits_le c⟩

section
variable {u : UnitId} {es : List Event} {st st' : Status}

/-- Every move of a STATUS register keeps it legal. -/
theorem statusLegal_of_move (m : StatusMove u es st st') (hst : StatusLegal st) : StatusLegal st' := by
  cases m with
  | kept | dropped => exact hst
  | reset => exact statusLegal_reset
  | accepted => exact ⟨fun _ => ⟨rfl, rfl⟩, Nat.zero_le 4⟩
  | written => simpa [StatusLegal] using hst
  | completed | constructed => exact statusLegal_completeStatus _ _

/-- A construction sets INIT, and every other move but reset keeps it. -/
theorem reset_of_init_cleared (m : StatusMove u es st st') (hset : st.init = true) (hclear : st'.init = false) :
    ∃ rest, es = .reset :: rest := by
  cases m with
  | reset he => exact ⟨_, he⟩
  | _ => simp_all

/-- OVERRUN is cleared by reset or by a STATUS write with bit 16 set. -/
theorem overrun_cleared (m : StatusMove u es st st') (hset : st.overrun = true) (hclear : st'.overrun = false) :
    (∃ rest, es = .reset :: rest) ∨
      ∃ host v rest, es = .write host (regOffset (statusReg u)) .b8 v :: rest ∧ v.getLsbD 16 = true := by
  cases m with
  | reset he => exact .inl ⟨_, he⟩
  | written he => exact .inr ⟨_, _, _, he, by simpa [hset] using hclear⟩
  | _ => simp_all

/-- OVERRUN is set by a command write that a BUSY unit drops. -/
theorem overrun_set (m : StatusMove u es st st') (hclear : st.overrun = false) (hset : st'.overrun = true) :
    st.busy = true ∧ ∃ host v rest, es = .write host (regOffset (cmdReg u)) .b8 v :: rest := by
  cases m with
  | dropped he hb => exact ⟨hb, _, _, _, he⟩
  | reset => cases hset
  | _ => simp_all

end

/-- Settles O37: seen from STATUS, a step is a move, and of these only reset clears INIT. -/
theorem initIsClearedOnlyByReset : Obligations.InitIsClearedOnlyByReset := by
  unfold Obligations.InitIsClearedOnlyByReset
  exact fun u _ _ hstep => reset_of_init_cleared (step_statusMove u hstep)

/-- Settles O38: seen from STATUS, a step is a move, and each direction of OVERRUN has its own. -/
theorem overrunChangesOnlyByItsRules : Obligations.OverrunChangesOnlyByItsRules := by
  unfold Obligations.OverrunChangesOnlyByItsRules
  exact fun u _ _ hstep => ⟨overrun_cleared (step_statusMove u hstep), overrun_set (step_statusMove u hstep)⟩

/-! ### The counters (10_state.md R21, R27) -/

/-- An OK completion of a constructed unit leaves the STATUS of a finished command. -/
theorem completeStatus_ok {st : Status} (hinit : st.init = true) : completeStatus st .ok = finished st true 0 := by
  rw [← hinit]; rfl

/-- Settles O40, along the moves of HM: a construction makes the count 0, HM.GEN adds 1 below the limit. -/
theorem callCountNeverWraps : Obligations.CallCountNeverWraps := by
  unfold Obligations.CallCountNeverWraps
  intro s t hstep
  have hmove := step_hmMove hstep
  generalize t.hm = h' at hmove ⊢
  cases hmove with
  | reset he => exact .inr (.inl ⟨⟨_, he⟩, rfl⟩)
  | constructed seed signed hb hw hd hi => exact .inr (.inr ⟨_, _, hb, hw, hd, rfl, .inl ⟨hi, rfl⟩⟩)
  | generated t hb hw hd hinit hlen hcount =>
    have hlt : s.hm.count.toNat < 2 ^ 64 - 1 :=
      Nat.lt_of_le_of_ne (Nat.le_sub_one_of_lt s.hm.count.isLt) hcount
    have hnext : (s.hm.count + 1).toNat = s.hm.count.toNat + 1 := BitVec.toNat_add_of_lt (Nat.add_lt_of_lt_sub hlt)
    exact .inr (.inr ⟨_, _, hb, hw, hd, completeStatus_ok hinit, .inr ⟨⟨_, rfl⟩, hlt, hnext⟩⟩)
  | _ => exact .inl rfl

/-- Settles O41, along the moves of SK: a construction makes the cursor 0, a consuming command advances it. -/
theorem cursorIsACyclicCounter : Obligations.CursorIsACyclicCounter := by
  unfold Obligations.CursorIsACyclicCounter
  intro s t hstep
  have hmove := step_skMove hstep
  generalize t.sk = k' at hmove ⊢
  cases hmove with
  | reset he => exact .inr (.inl ⟨_, he⟩)
  | constructed mk hb hw hd hi => exact .inr (.inr ⟨_, _, hb, hw, hd, rfl, .inl ⟨hi, rfl⟩⟩)
  | consumed result hb hw hd hi hinit =>
    have hnext : (s.sk.cursor + 1).toNat = (s.sk.cursor.toNat + 1) % 16 := by simp
    exact .inr (.inr ⟨_, _, hb, hw, hd, completeStatus_ok hinit, .inr ⟨hi, hnext⟩⟩)
  | _ => exact .inl rfl

/-! ### The stored key is the recomputed key (10_state.md R22)

The key has 256 bits, so the raw-key registers hold all of it, and its text has at most 64 characters, so HM_HEXLEN holds
the length. -/

/-- The digits of a number below `b ^ k` are at most `k`. -/
theorem digitsOnto_length_le {b : Nat} (fuel : Nat) {n k : Nat} (acc : List Nat) (h : n < b ^ k) :
    (digitsOnto b fuel n acc).length ≤ acc.length + k := by
  induction fuel generalizing n k acc with
  | zero => simp [digitsOnto]
  | succ fuel ih =>
    unfold digitsOnto
    split
    · omega
    · cases k with
      | zero => simp at h; omega
      | succ k =>
        have hdiv : n / b < b ^ k := Nat.div_lt_of_lt_mul (by rwa [pow_succ'] at h)
        have hlen := ih (n % b :: acc) hdiv
        simp only [List.length_cons] at hlen
        omega

/-- The hexadecimal text of a number below `16 ^ k` has at most `k` characters, if `k` allows one. -/
theorem hexU_length_le {x k : Nat} (hk : 0 < k) (hx : x < 16 ^ k) : (hexU x).length ≤ k := by
  unfold hexU numeral
  split
  · exact hk
  · simpa [digitsOf] using digitsOnto_length_le _ [] hx

/-- A text of `n` bytes is a number below `256 ^ n`. -/
theorem bigEndian_lt (m : List Byte) : bigEndian m < 256 ^ m.length := by
  induction m using List.reverseRecOn with
  | nil => simp [bigEndian]
  | append_singleton m b ih =>
    have hstep : bigEndian (m ++ [b]) = bigEndian m * 256 + b.toNat := by simp [bigEndian]
    have hb := b.isLt
    rw [hstep, List.length_append, List.length_singleton, pow_succ]
    omega

/-- The digest has 32 bytes, so a hashed text is a number of 256 bits. -/
theorem hashint_lt (m : List Byte) : hashint m < 2 ^ 256 := by
  have hlen : (sha256 m).length = 32 := by simp [sha256, shaDigest, bytesOfWord]
  have hlt := bigEndian_lt (sha256 m)
  rwa [hlen] at hlt

/-- With HM_KEYLEN 0 there is no key, and every result register must be 0. -/
theorem keyRecomputable_of_no_key {h : Hm} (hlen : h.keylen = 0)
    (hzero : h.count = 0 ∧ h.time = 0 ∧ h.hexlen = 0 ∧ rawKey h = 0) : KeyRecomputable h := by
  rwa [KeyRecomputable, if_pos hlen]

theorem keyRecomputable_reset : KeyRecomputable Hm.reset :=
  keyRecomputable_of_no_key rfl ⟨rfl, rfl, rfl, by decide⟩

theorem keyRecomputable_constructHm (h : Hm) (seed : Word) (signed : Bool) :
    KeyRecomputable (constructHm h seed signed) :=
  keyRecomputable_of_no_key rfl ⟨rfl, rfl, rfl, rawKey_constructHm h seed signed⟩

/-- After HM.GEN the result registers recompute the key: the count it used is the present one less 1. -/
theorem keyRecomputable_storeKey {h : Hm} {len : BitVec 16} {t : Word} (hlen : len ≠ 0)
    (hcount : uint h.count ≠ 2 ^ 64 - 1) : KeyRecomputable (storeKey h len t) := by
  have hraw : (rawKey (storeKey h len t)).toNat = genRaw (seedInt h.ssign h.seed) (uint h.count) t := by
    rw [rawKey_storeKey, BitVec.toNat_ofNat]
    exact Nat.mod_eq_of_lt (hashint_lt _)
  have hmoved : h.count + 1 ≠ 0 := fun hzero =>
    hcount (congrArg BitVec.toNat (eq_neg_of_add_eq_zero_left hzero))
  have htext : (hexU (rawKey (storeKey h len t)).toNat).length ≤ 64 :=
    hexU_length_le (by decide) (rawKey (storeKey h len t)).isLt
  rw [KeyRecomputable, if_neg (show (storeKey h len t).keylen ≠ 0 from hlen)]
  refine ⟨hmoved, ?_, ?_⟩
  · have hback : (storeKey h len t).count - 1 = h.count := add_sub_cancel_right h.count 1
    rw [hraw, hback]
    rfl
  · have hstored : (storeKey h len t).hexlen = BitVec.ofNat 7 (hexU (rawKey (storeKey h len t)).toNat).length := by
      rw [hraw]; rfl
    rw [hstored, BitVec.toNat_ofNat]
    exact Nat.mod_eq_of_lt (by omega)

/-! ### Consistency (10_state.md R22, R26, R31, R36, R40), property by property along the moves -/

theorem scheduleDerived_reset : ScheduleDerived Sk.reset := by
  rw [ScheduleDerived, if_neg (by decide)]
  exact ⟨rfl, rfl, rfl, rfl⟩

section
variable {es : List Event}

/-- Acceptance fills the latch and sets BUSY, a completion and reset undo both, and nothing else touches either. -/
theorem latch_of_hmMove {h h' : Hm} (m : HmMove es h h') (hlatch : h.pend.isSome = h.status.busy) :
    h'.pend.isSome = h'.status.busy := by
  cases m with
  | kept | operand | dropped => exact hlatch
  | written => simpa using hlatch
  | accepted | reset | failed | constructed | generated => rfl

/-- The same in SK. -/
theorem latch_of_skMove {k k' : Sk} (m : SkMove es k k') (hlatch : k.pend.isSome = k.status.busy) :
    k'.pend.isSome = k'.status.busy := by
  cases m with
  | kept | operand | dropped => exact hlatch
  | written => simpa using hlatch
  | accepted | reset | failed | constructed | consumed | piped => rfl

/-- Only reset, a construction and HM.GEN touch what the key is recomputed from. -/
theorem keyRecomputable_of_move {h h' : Hm} (m : HmMove es h h') (hkey : KeyRecomputable h) : KeyRecomputable h' := by
  cases m with
  | reset => exact keyRecomputable_reset
  | constructed seed signed => exact keyRecomputable_constructHm h seed signed
  | generated t _ _ _ _ hlen hcount => exact keyRecomputable_storeKey (t := t) hlen hcount
  | _ => exact hkey

/-- HM.GEN needs INIT, so an unconstructed generator keeps its reset values. -/
theorem unconstructedHm_of_move {h h' : Hm} (m : HmMove es h h') (hfresh : UnconstructedHm h) : UnconstructedHm h' := by
  cases m with
  | reset => exact fun _ => ⟨rfl, rfl, rfl, rfl⟩
  | written => simpa [UnconstructedHm] using hfresh
  | constructed => exact nofun
  | generated _ _ _ _ hinit => exact fun hclear => absurd (hinit.symm.trans hclear) (by decide)
  | _ => exact hfresh

/-- A consuming command needs INIT and keeps the schedule, which only reset and a construction write. -/
theorem scheduleDerived_of_move {k k' : Sk} (m : SkMove es k k') (hsched : ScheduleDerived k) : ScheduleDerived k' := by
  cases m with
  | reset => exact scheduleDerived_reset
  | written => simpa [ScheduleDerived] using hsched
  | constructed => exact rfl
  | consumed result _ _ _ _ hinit =>
    have hderived : k.subkey = derive k.master := by simpa [ScheduleDerived, hinit] using hsched
    simpa [ScheduleDerived, completedSk, consumeSubkey, hinit] using hderived
  | _ => exact hsched

end

/-- Settles O34: every part of the invariant holds of the reset values. -/
theorem resetIsConsistent : Obligations.ResetIsConsistent :=
  ⟨⟨rfl, rfl⟩, statusLegal_reset, statusLegal_reset, keyRecomputable_reset, scheduleDerived_reset,
    fun _ => ⟨rfl, rfl, rfl, rfl⟩⟩

/-- Settles O35: a step is a move of each unit, and each part of the invariant is kept by the moves of its unit. -/
theorem everyStepKeepsConsistency : Obligations.EveryStepKeepsConsistency := by
  unfold Obligations.EveryStepKeepsConsistency
  intro s t ⟨⟨hlatchHm, hlatchSk⟩, hlegalHm, hlegalSk, hkey, hsched, hfresh⟩ hstep
  have hmoveHm := step_hmMove hstep
  have hmoveSk := step_skMove hstep
  exact ⟨⟨latch_of_hmMove hmoveHm hlatchHm, latch_of_skMove hmoveSk hlatchSk⟩,
    statusLegal_of_move hmoveHm.statusMove hlegalHm, statusLegal_of_move hmoveSk.statusMove hlegalSk,
    keyRecomputable_of_move hmoveHm hkey, scheduleDerived_of_move hmoveSk hsched,
    unconstructedHm_of_move hmoveHm hfresh⟩

/-! ### One event of the list (20_memory.md R54, R49) -/

/-- A listed event is what the next step takes. -/
theorem step_listed {s : State} {e : Event} {rest : List Event} (h : s.events = e :: rest) :
    step s = applyEvent e { s with events := rest } := by
  simp only [step, h]

/-- An 8-byte write at a register's offset is the register's own effect. -/
theorem step_write_reg {s : State} {host : Nat} {v : Word} {rest : List Event} (r : Reg)
    (h : s.events = .write host (regOffset r) .b8 v :: rest) :
    step s = .next (writeReg { s with events := rest } v r) := by
  rw [step_listed h, applyEvent, memWrite_reg]

/-- Settles O5: the completion of a BUSY unit decodes the latched word, which the event list has no part in. -/
theorem stepRunsTheDecodedCommand : Obligations.StepRunsTheDecodedCommand := by
  unfold Obligations.StepRunsTheDecodedCommand
  intro u w i s rest hevents hbusy hword hdecode
  have hbusy' : unitBusy u { s with events := rest } = true := by cases u <;> exact hbusy
  have hword' : latchedWord u { s with events := rest } = some w := by cases u <;> exact hword
  simp only [step_listed hevents, applyEvent, completion, completeWord, hbusy', hword', hdecode, if_true]

/-- Settles O7: the CMD write of either unit is acceptance, which BUSY decides. -/
theorem commandWriteIsAcceptedOrDropped : Obligations.CommandWriteIsAcceptedOrDropped := by
  unfold Obligations.CommandWriteIsAcceptedOrDropped
  intro s host w rest
  constructor <;> intro hevents
  · rw [step_write_reg .hmCmd hevents, writeReg, acceptHm]
    rfl
  · rw [step_write_reg .skCmd hevents, writeReg, acceptSk]
    rfl

/-- What a STATUS write does, with bit 16 read off the number written. -/
theorem writeStatus_eq (st : Status) (v : Word) :
    writeStatus st v = { st with overrun := if v.toNat / 2 ^ 16 % 2 = 1 then false else st.overrun } := by
  have hbit : v.getLsbD 16 = decide (v.toNat / 2 ^ 16 % 2 = 1) := Nat.testBit_eq_decide_div_mod_eq
  unfold writeStatus
  rw [hbit]
  by_cases hset : v.toNat / 2 ^ 16 % 2 = 1
  · rw [if_pos hset, if_pos (decide_eq_true hset)]
  · rw [if_neg hset, if_neg (by rwa [decide_eq_true_eq])]

/-- Settles O9: the STATUS write of either unit is `writeStatus`. -/
theorem statusWriteClearsOverrunOnly : Obligations.StatusWriteClearsOverrunOnly := by
  unfold Obligations.StatusWriteClearsOverrunOnly
  intro s host v rest
  constructor <;> intro hevents
  · rw [step_write_reg .hmStatus hevents, writeReg, writeStatus_eq]
    rfl
  · rw [step_write_reg .skStatus hevents, writeReg, writeStatus_eq]
    rfl

/-! ### STATUS as a host reads it, and the reset values (10_state.md R31, R40) -/

/-- Bit `i` of the STATUS word, field by field from the top. -/
theorem statusWord_getLsbD (st : Status) (ssign : Bool) (i : Nat) :
    (statusWord st ssign).getLsbD i =
      if i = 0 then st.busy
      else if i = 1 then st.done
      else if i = 2 then decide (st.errcode ≠ 0)
      else if i = 3 then st.init
      else if i = 4 then ssign
      else if 8 ≤ i ∧ i < 12 then st.errcode.getLsbD (i - 8)
      else if i = 16 then st.overrun
      else false := by
  simp only [statusWord, errFlag, BitVec.getLsbD_append]
  rcases lt_or_ge i 17 with hi | hi
  · interval_cases i <;> simp
  · simp (disch := omega) only [if_neg, BitVec.getLsbD_zero]

/-- Settles O14: each field and each reserved range is an entry of the table of bits. -/
theorem statusBitsAreThoseOfTheTable : Obligations.StatusBitsAreThoseOfTheTable := by
  unfold Obligations.StatusBitsAreThoseOfTheTable
  intro st ssign
  have hcode : (statusWord st ssign).extractLsb' 8 4 = st.errcode := by
    apply BitVec.eq_of_getLsbD_eq
    intro j hj
    rw [BitVec.getLsbD_extractLsb', statusWord_getLsbD]
    interval_cases j <;> simp
  have hreserved : ∀ i, (5 ≤ i ∧ i ≤ 7) ∨ (12 ≤ i ∧ i ≤ 15) ∨ (17 ≤ i ∧ i ≤ 63) →
      (statusWord st ssign).getLsbD i = false := by
    intro i hi
    rw [statusWord_getLsbD]
    grind
  exact ⟨statusWord_getLsbD st ssign 0, statusWord_getLsbD st ssign 1, statusWord_getLsbD st ssign 2,
    statusWord_getLsbD st ssign 3, statusWord_getLsbD st ssign 4, hcode, statusWord_getLsbD st ssign 16, hreserved⟩

/-- Settles O17: each register's reset value is written in `Hm.reset` and `Sk.reset`. -/
theorem resetValuesAreZeroAndEmpty : Obligations.ResetValuesAreZeroAndEmpty := by
  unfold Obligations.ResetValuesAreZeroAndEmpty
  have hsubkey : ∀ i : Fin 16, State.reset.sk.subkey[i.val] = 0 := fun i => Vector.getElem_replicate i.isLt
  have hstatus : statusWord Status.reset false = 0 := by decide
  exact ⟨hstatus, hstatus, rfl, rfl, rfl, rfl, rfl, rfl, rfl, rfl, rfl, rfl, rfl, rfl, rfl, rfl, rfl, rfl, rfl, rfl,
    hsubkey, rfl, rfl⟩

end Sys2Proof.StateRules

/-! The statements about the host's accesses (20_memory.md): the bytes of a key-window read, and what a write and a read
do at each offset of the register region. -/

namespace Sys2Proof.MemoryRules

open Sys2Proof.Machine Sys2Proof.Laws Sys2Proof.StateRules

/-! ### Bytes of a little-endian number (20_memory.md R44) -/

/-- The number of `n` bytes is below `256 ^ n`. -/
theorem littleEndian_lt (bs : List Byte) : littleEndian bs < 256 ^ bs.length := by
  induction bs with
  | nil => exact Nat.one_pos
  | cons b bs ih =>
    have hb := b.isLt
    rw [littleEndian, List.length_cons, pow_succ]
    omega

/-- Byte `j` of a little-endian number is entry `j` of the list. -/
theorem littleEndian_byte {bs : List Byte} {j : Nat} (hj : j < bs.length) :
    littleEndian bs / 256 ^ j % 256 = bs[j].toNat := by
  induction bs generalizing j with
  | nil => exact absurd hj (Nat.not_lt_zero j)
  | cons b bs ih =>
    have hb := b.isLt
    cases j with
    | zero =>
      simp only [littleEndian, pow_zero, Nat.div_one, List.getElem_cons_zero]
      omega
    | succ j =>
      have htail : littleEndian (b :: bs) / 256 = littleEndian bs := by
        rw [littleEndian]
        omega
      rw [pow_succ', ← Nat.div_div_eq_div_mul, htail]
      exact ih (Nat.lt_of_succ_lt_succ hj)

/-! ### The key window (20_memory.md R47, 41_hash_mix.md R90) -/

/-- The bytes a read of width `w` at byte `i` of the key window covers, first byte first. -/
def windowBytes (h : Hm) (i : Nat) (w : Width) : List Byte :=
  (List.range w.bytes).map fun j => keyByte h (i + j)

@[simp] theorem length_windowBytes (h : Hm) (i : Nat) (w : Width) : (windowBytes h i w).length = w.bytes := by
  simp [windowBytes]

@[simp] theorem getElem_windowBytes {h : Hm} {i j : Nat} {w : Width} (hj : j < (windowBytes h i w).length) :
    (windowBytes h i w)[j] = keyByte h (i + j) := by
  simp [windowBytes]

/-- No access is wider than the bus, so the number of its bytes needs no more than 64 bits. -/
theorem littleEndian_windowBytes_lt (h : Hm) (i : Nat) (w : Width) :
    littleEndian (windowBytes h i w) < 2 ^ (8 * w.bytes) ∧ 2 ^ (8 * w.bytes) ≤ 2 ^ 64 := by
  have hlt := littleEndian_lt (windowBytes h i w)
  rw [length_windowBytes] at hlt
  constructor
  · rwa [pow_mul]
  · cases w <;> decide

/-- The window starts at a multiple of every width, so alignment there and in the whole range agree. -/
theorem windowOffset_mod {n : Nat} (hn : 0x10000 ≤ n) (w : Width) : (n - 0x10000) % w.bytes = n % w.bytes := by
  cases w <;> simp only [Width.bytes] <;> omega

/-- An aligned key-window read is the number of the bytes it covers, none of them cut off. -/
theorem memRead_window_aligned (s : State) {o : Offset} {w : Width} (ho : 0x10000 ≤ o.toNat)
    (haligned : o.toNat % w.bytes = 0) :
    (memRead s o w).toNat = littleEndian (windowBytes s.hm (o.toNat - 0x10000) w) := by
  obtain ⟨hlt, hfits⟩ := littleEndian_windowBytes_lt s.hm (o.toNat - 0x10000) w
  rw [memRead_window s o w ho, keyWindowRead, if_pos (by rwa [windowOffset_mod ho])]
  exact (BitVec.toNat_ofNat _ _).trans (Nat.mod_eq_of_lt (hlt.trans_le hfits))

/-- A misaligned key-window read is 0. -/
theorem memRead_window_misaligned (s : State) {o : Offset} {w : Width} (ho : 0x10000 ≤ o.toNat)
    (hmisaligned : o.toNat % w.bytes ≠ 0) : memRead s o w = 0 := by
  rw [memRead_window s o w ho, keyWindowRead, if_neg (by rwa [windowOffset_mod ho])]

/-- Settles O15: byte `j` of an aligned read is byte `j` of a little-endian number. -/
theorem keyWindowReadsAreLittleEndianCharacters : Obligations.KeyWindowReadsAreLittleEndianCharacters := by
  unfold Obligations.KeyWindowReadsAreLittleEndianCharacters
  intro s o width ho
  split
  · next haligned =>
    have hvalue := memRead_window_aligned s ho haligned
    constructor
    · intro j hj
      have hcovered : j < (windowBytes s.hm (o.toNat - 0x10000) width).length := by simpa using hj
      have hbyte := littleEndian_byte hcovered
      rw [getElem_windowBytes] at hbyte
      apply BitVec.eq_of_toNat_eq
      rw [BitVec.extractLsb'_toNat, hvalue, Nat.shiftRight_eq_div_pow, pow_mul]
      exact hbyte
    · rw [hvalue]
      exact (littleEndian_windowBytes_lt _ _ _).1
  · next hmisaligned => exact memRead_window_misaligned s ho hmisaligned

/-! ### Writes (20_memory.md R43, R46, R47, R49) -/

/-- Settles O8: the write of each operand register is its entry of `writeReg`, which does not ask for BUSY. -/
theorem operandWriteStoresTheValue : Obligations.OperandWriteStoresTheValue := by
  unfold Obligations.OperandWriteStoresTheValue
  intro s host v rest
  exact ⟨step_write_reg .hmSeedIn, step_write_reg .skKeyIn, step_write_reg .skMin, step_write_reg .skMax,
    step_write_reg .pxIn⟩

/-- A register that is neither a CMD, a STATUS nor an operand register is read-only. -/
theorem writeReg_readOnly (s : State) (v : Word) {r : Reg}
    (hoff : (regOffset r).toNat ∉ [0x000, 0x008, 0x010, 0x100, 0x108, 0x110, 0x128, 0x130, 0x140]) :
    writeReg s v r = s := by
  cases r with
  | hmCmd | hmStatus | hmSeedIn | skCmd | skStatus | skKeyIn | skMin | skMax | pxIn => exact absurd hoff (by decide)
  | _ => rfl

/-- Settles O10: a write does nothing or is that of a register, and the only writable ones are at the listed offsets. -/
theorem otherWritesAreIgnored : Obligations.OtherWritesAreIgnored := by
  unfold Obligations.OtherWritesAreIgnored
  intro s host o width v rest hevents hother
  rw [step_listed hevents, applyEvent]
  obtain hkept | ⟨r, rfl, hreg, hwrite⟩ := memWrite_cases { s with events := rest } o width v
  · rw [hkept]
  · obtain rfl := regOffset_of_regAt hreg
    rw [hwrite, writeReg_readOnly _ v (hother.resolve_left (not_not_intro rfl))]

/-! ### Reads (20_memory.md R42, R43, R46, R48) -/

/-- Settles O11: the events to come have no part in the value read. -/
theorem readsHaveNoSideEffect : Obligations.ReadsHaveNoSideEffect := by
  unfold Obligations.ReadsHaveNoSideEffect
  intro s host o width rest hevents
  have hvalue : memRead { s with events := rest } o width = memRead s o width := rfl
  rw [step_listed hevents, applyEvent, hostRead, hvalue]

/-- The subkeys lie 8 bytes apart from 0x180. -/
theorem regOffset_skSubkey (i : Fin 16) : (regOffset (.skSubkey i)).toNat = 0x180 + 8 * i.val := by
  revert i; decide

/-- A register that stores only its low bits reads as the number they hold: the bits above read 0. -/
theorem toNat_memRead_field {s : State} {n : Nat} {field : BitVec n} (r : Reg) (hn : n ≤ 64)
    (hr : readReg s.hm s.sk r = field.setWidth 64) : (memRead s (regOffset r) .b8).toNat = field.toNat := by
  rw [memRead_reg, hr, BitVec.toNat_setWidth_of_le hn]

/-- Settles O12: each offset is that of a register, whose value `readReg` gives. -/
theorem registerReadsFollowTheMap : Obligations.RegisterReadsFollowTheMap := by
  unfold Obligations.RegisterReadsFollowTheMap
  intro s
  have hkeylen : (memRead s 0x030 .b8).toNat = s.hm.keylen.toNat :=
    toNat_memRead_field .hmKeylen (by decide) rfl
  have hhexlen : (memRead s 0x038 .b8).toNat = s.hm.hexlen.toNat :=
    toNat_memRead_field .hmHexlen (by decide) rfl
  have hcursor : (memRead s 0x120 .b8).toNat = s.sk.cursor.toNat :=
    toNat_memRead_field .skCursor (by decide) rfl
  have hsubkey : ∀ (i : Fin 16) (o : Offset), o.toNat = 0x180 + 8 * i.val → memRead s o .b8 = s.sk.subkey[i.val] := by
    intro i o ho
    obtain rfl : regOffset (.skSubkey i) = o := BitVec.eq_of_toNat_eq ((regOffset_skSubkey i).trans ho.symm)
    exact memRead_reg s (.skSubkey i)
  exact ⟨memRead_reg s .hmCmd, memRead_reg s .hmStatus, memRead_reg s .hmSeedIn, memRead_reg s .hmSeed,
    memRead_reg s .hmCount, memRead_reg s .hmTime, hkeylen, hhexlen, memRead_reg s .hmRawkey0,
    memRead_reg s .hmRawkey1, memRead_reg s .hmRawkey2, memRead_reg s .hmRawkey3, memRead_reg s .skCmd,
    memRead_reg s .skStatus, memRead_reg s .skKeyIn, memRead_reg s .skMaster, hcursor, memRead_reg s .skMin,
    memRead_reg s .skMax, memRead_reg s .skResult, memRead_reg s .pxIn, memRead_reg s .pxOut, hsubkey⟩

/-- What a read of the register region answers: 0, or an 8-byte read's register. -/
theorem memRead_region_cases (s : State) {o : Offset} (w : Width) (ho : o.toNat < 0x10000) :
    memRead s o w = 0 ∨ ∃ r, w = .b8 ∧ regAt o = some r ∧ memRead s o w = readReg s.hm s.sk r := by
  unfold memRead
  rw [if_pos ho]
  split
  · split
    · exact .inr ⟨_, ‹_›, ‹_›, rfl⟩
    · exact .inl rfl
  · exact .inl rfl

/-- The three blocks of the map: HM, SK with the pipeline, and the subkey file. -/
theorem regOffset_blocks (r : Reg) :
    (regOffset r).toNat ≤ 0x058 ∨ (0x100 ≤ (regOffset r).toNat ∧ (regOffset r).toNat ≤ 0x148) ∨
      (0x180 ≤ (regOffset r).toNat ∧ (regOffset r).toNat ≤ 0x1F8) := by
  cases r with
  | skSubkey i =>
    rw [regOffset_skSubkey]
    omega
  | _ => decide

/-- Settles O13: the reserved ranges lie between the blocks of the map. -/
theorem otherRegisterRegionReadsReturnZero : Obligations.OtherRegisterRegionReadsReturnZero := by
  unfold Obligations.OtherRegisterRegionReadsReturnZero
  intro s o width ho hother
  obtain hzero | ⟨r, hwidth, hreg, -⟩ := memRead_region_cases s width ho
  · exact hzero
  · obtain rfl := regOffset_of_regAt hreg
    have hreserved := hother.resolve_left (not_not_intro hwidth)
    have hplace := (regOffset_region r).2
    have hblock := regOffset_blocks r
    omega

end Sys2Proof.MemoryRules

/-! The encoding of the commands (30_encoding.md R61 to R70). Decoding is read off the four fields of a word: what a
legal word's fields are, which fields make a word illegal, and the words the assembler lays out. -/

namespace Sys2Proof.Encoding

open Sys2Proof.Machine Sys2Proof.Laws Sys2Proof.Safety

/-! ### A legal word is its command's encoding (R62, R63, R66) -/

/-- The reserved SUB bits of HM.INIT as a number (R66). -/
theorem reservedSub_eq_zero_iff (sub : BitVec 8) : sub.extractLsb' 1 7 = 0 ↔ sub.toNat / 2 = 0 := by
  have hlt := sub.isLt
  have hnat : (sub.extractLsb' 1 7).toNat = sub.toNat / 2 := by
    rw [BitVec.extractLsb'_toNat, Nat.shiftRight_eq_div_pow]
    omega
  rw [← BitVec.toNat_inj, hnat]
  rfl

/-- A SUB field with no reserved bit is the one that HM.INIT lays out for its bit S. -/
theorem subOf_hmInit_bit {sub : BitVec 8} (h : sub.extractLsb' 1 7 = 0) : subOf (.hmInit (sub.getLsbD 0)) = sub := by
  have hlt : sub.toNat < 2 := by
    have hhalf := (reservedSub_eq_zero_iff sub).mp h
    omega
  obtain rfl | rfl : sub = 0 ∨ sub = 1 := by bv_omega
  · rfl
  · rfl

/-- A plain form answers the command whose fields it was given. -/
theorem fields_of_plainForm {op sub : BitVec 8} {imm : BitVec 16} {k i : Instr} (h : plainForm sub imm k = .ok i)
    (hop : op = opcodeOf k) (hsub : subOf k = 0) (himm : immOf k = 0) :
    op = opcodeOf i ∧ sub = subOf i ∧ imm = immOf i := by
  obtain ⟨rfl, rfl, rfl⟩ := (plainForm_eq_ok ..).mp h
  exact ⟨hop, hsub.symm, himm.symm⟩

/-- A form with an immediate answers the command whose fields it was given. -/
theorem fields_of_immForm {op sub : BitVec 8} {imm : BitVec 16} {k i : Instr} (h : immForm sub k = .ok i)
    (hop : op = opcodeOf k) (hsub : subOf k = 0) (himm : immOf k = imm) :
    op = opcodeOf i ∧ sub = subOf i ∧ imm = immOf i := by
  obtain ⟨rfl, rfl⟩ := (immForm_eq_ok ..).mp h
  exact ⟨hop, hsub.symm, himm.symm⟩

/-- The form of HM.INIT answers the command whose fields it was given. -/
theorem fields_of_initForm {sub : BitVec 8} {imm : BitVec 16} {i : Instr} (h : initForm sub imm = .ok i) :
    0x01 = opcodeOf i ∧ sub = subOf i ∧ imm = immOf i := by
  obtain ⟨hreserved, rfl, rfl⟩ := (initForm_eq_ok ..).mp h
  exact ⟨rfl, (subOf_hmInit_bit hreserved).symm, rfl⟩

/-- An HM decode answers the command whose fields it was given. -/
theorem fields_of_decodeHm {op sub : BitVec 8} {imm : BitVec 16} {i : Instr} (h : decodeHm op sub imm = .ok i) :
    op = opcodeOf i ∧ sub = subOf i ∧ imm = immOf i := by
  unfold decodeHm at h
  split_ifs at h with hinit hinitt hgen
  · exact hinit ▸ fields_of_initForm h
  · exact fields_of_plainForm h hinitt rfl rfl
  · exact fields_of_immForm h hgen rfl rfl

/-- An SK decode answers the command whose fields it was given. -/
theorem fields_of_decodeSk {op sub : BitVec 8} {imm : BitVec 16} {i : Instr} (h : decodeSk op sub imm = .ok i) :
    op = opcodeOf i ∧ sub = subOf i ∧ imm = immOf i := by
  unfold decodeSk at h
  split_ifs at h with hinit hinitt hraw hrange hrotl hbrx
  · exact fields_of_plainForm h hinit rfl rfl
  · exact fields_of_plainForm h hinitt rfl rfl
  · exact fields_of_plainForm h hraw rfl rfl
  · exact fields_of_plainForm h hrange rfl rfl
  · exact fields_of_immForm h hrotl rfl rfl
  · exact fields_of_plainForm h hbrx rfl rfl

/-- No bit of a legal word is dropped (R66): it is the encoding of the command it decodes to. -/
theorem encode_of_decode {u : UnitId} {w : Word} {i : Instr} (h : decode u w = .ok i) : encode i = w := by
  unfold decode at h
  split_ifs at h with hrsv
  have hfields : opField w = opcodeOf i ∧ subField w = subOf i ∧ immField w = immOf i := by
    cases u with
    | hm => exact fields_of_decodeHm h
    | sk => exact fields_of_decodeSk h
  obtain ⟨hop, hsub, himm⟩ := hfields
  rw [word_eq_fields w, not_not.mp hrsv, hop, hsub, himm]
  rfl

/-- A command's encoding is accepted by its own unit, as that command. -/
theorem decode_encode (i : Instr) : decode i.unit (encode i) = .ok i := by
  obtain ⟨hrsv, himm, hsub, hop⟩ := encode_fields i
  unfold decode
  rw [if_neg (not_not_intro hrsv), himm, hsub, hop]
  cases i with
  | hmInit signed => cases signed <;> rfl
  | _ => rfl

/-- Settles O1: a legal word is its command's encoding, and every encoding is a legal word of its command's unit. -/
theorem decodeAcceptsExactlyTheEncodings : Obligations.DecodeAcceptsExactlyTheEncodings := by
  unfold Obligations.DecodeAcceptsExactlyTheEncodings
  intro u w i
  rw [Command.wf, decide_eq_true_iff]
  constructor
  · intro hdecode
    exact ⟨Moves.unit_of_decode hdecode, encode_of_decode hdecode⟩
  · rintro ⟨hunit, rfl⟩
    obtain rfl : i.unit = u := hunit
    exact decode_encode i

/-- Settles O4: the seven legal words are encodings; the two others are evaluated. -/
theorem sampleWordsDecode : Obligations.SampleWordsDecode :=
  ⟨decode_encode (.hmInit true), decode_encode .hmInitt, decode_encode (.hmGen 65535), decode_encode .skInit,
    decode_encode .skRange, decode_encode (.pxRotl 32), decode_encode .pxBrx, by decide, by decide⟩

/-! ### The illegal words (R67) -/

/-- SUB or IMM16 is nonzero where the opcode does not use it (R67, its last two kinds), the fields as numbers. -/
def MisusedFields (op sub imm : Nat) : Prop :=
  (if op = 0x01 then sub / 2 ≠ 0 else sub ≠ 0) ∨ (imm ≠ 0 ∧ op ≠ 0x03 ∧ op ≠ 0x21)

/-- What makes a word illegal for HM, its RSV field aside. -/
theorem decodeHm_isError (op sub : BitVec 8) (imm : BitVec 16) :
    (∃ e, decodeHm op sub imm = .error e) ↔
      op.toNat ∉ [0x01, 0x02, 0x03] ∨ MisusedFields op.toNat sub.toNat imm.toNat := by
  unfold decodeHm
  split_ifs with hinit hinitt hgen
  · rw [initForm_isError, Ne, reservedSub_eq_zero_iff]
    simp [hinit, MisusedFields, ← BitVec.toNat_inj]
  · rw [plainForm_isError]
    simp [hinitt, MisusedFields, ← BitVec.toNat_inj]
  · rw [immForm_isError]
    simp [hgen, MisusedFields, ← BitVec.toNat_inj]
  · rw [← BitVec.toNat_inj] at hinit hinitt hgen
    exact iff_of_true ⟨_, rfl⟩ (.inl (by simp_all))

/-- What makes a word illegal for SK, its RSV field aside. -/
theorem decodeSk_isError (op sub : BitVec 8) (imm : BitVec 16) :
    (∃ e, decodeSk op sub imm = .error e) ↔
      op.toNat ∉ [0x11, 0x12, 0x13, 0x14, 0x21, 0x22] ∨ MisusedFields op.toNat sub.toNat imm.toNat := by
  unfold decodeSk
  split_ifs with hinit hinitt hraw hrange hrotl hbrx
  case neg =>
    rw [← BitVec.toNat_inj] at hinit hinitt hraw hrange hrotl hbrx
    exact iff_of_true ⟨_, rfl⟩ (.inl (by simp_all))
  all_goals
    simp [*, MisusedFields, ← BitVec.toNat_inj]

/-- A guarded result is an error when the guard or the result is. -/
theorem isError_ite {α ε : Type} (p : Prop) [Decidable p] (r : ε) (x : Except ε α) :
    (∃ e, (if p then .error r else x) = .error e) ↔ p ∨ ∃ e, x = .error e := by
  split_ifs with hp <;> simp [hp]

/-- RSV is nonzero exactly when the number of the word has more than 32 bits. -/
theorem rsvField_ne_zero_iff (w : Word) : rsvField w ≠ 0 ↔ w.toNat / 2 ^ 32 ≠ 0 := by
  obtain ⟨-, -, -, hrsv⟩ := field_toNat w
  rw [Ne, ← BitVec.toNat_inj, hrsv]
  rfl

/-- The words that are illegal for HM. -/
theorem decode_hm_isError (w : Word) :
    (∃ e, decode .hm w = .error e) ↔
      w.toNat / 2 ^ 32 ≠ 0 ∨ w.toNat % 256 ∉ [0x01, 0x02, 0x03] ∨
        MisusedFields (w.toNat % 256) (w.toNat / 2 ^ 8 % 256) (w.toNat / 2 ^ 16 % 65536) := by
  obtain ⟨hop, hsub, himm, -⟩ := field_toNat w
  rw [decode, isError_ite, rsvField_ne_zero_iff, decodeHm_isError, hop, hsub, himm]
  rfl

/-- The words that are illegal for SK. -/
theorem decode_sk_isError (w : Word) :
    (∃ e, decode .sk w = .error e) ↔
      w.toNat / 2 ^ 32 ≠ 0 ∨ w.toNat % 256 ∉ [0x11, 0x12, 0x13, 0x14, 0x21, 0x22] ∨
        MisusedFields (w.toNat % 256) (w.toNat / 2 ^ 8 % 256) (w.toNat / 2 ^ 16 % 65536) := by
  obtain ⟨hop, hsub, himm, -⟩ := field_toNat w
  rw [decode, isError_ite, rsvField_ne_zero_iff, decodeSk_isError, hop, hsub, himm]
  rfl

/-! ### The completion of a latched word (R66) -/

/-- A BUSY unit whose next event is its completion runs the word in its latch. -/
theorem step_completes_latched {u : UnitId} {w : Word} {s : State} {rest : List Event}
    (hevents : s.events = .complete u :: rest) (hbusy : unitBusy u s = true) (hword : latchedWord u s = some w) :
    step s = completeWord u w { s with events := rest } := by
  have hbusy' : unitBusy u { s with events := rest } = true := by cases u <;> exact hbusy
  have hword' : latchedWord u { s with events := rest } = some w := by cases u <;> exact hword
  rw [StateRules.step_listed hevents, applyEvent, completion, if_pos hbusy', hword']

/-- An error changes the unit's latch and STATUS alone (60_exceptions.md R108). -/
theorem complete_eq_onlyCompleted (u : UnitId) (c : ErrCode) (s : State) :
    complete u c s = onlyCompleted u (codeBits c) s := by
  cases u <;> rfl

/-- Settles O2: the illegal words form by form, and the error completion that `decode` leads to. -/
theorem illegalWordsAreListedAndCompleteWithCodeThree : Obligations.IllegalWordsAreListedAndCompleteWithCodeThree := by
  unfold Obligations.IllegalWordsAreListedAndCompleteWithCodeThree
  constructor
  · intro u w
    cases u with
    | hm => simpa only [MisusedFields, true_and, reduceCtorEq, false_and, false_or] using decode_hm_isError w
    | sk => simpa only [MisusedFields, true_and, reduceCtorEq, false_and, false_or] using decode_sk_isError w
  · intro u w e s rest hevents hbusy hword hdecode
    rw [step_completes_latched hevents hbusy hword, completeWord, hdecode]
    exact congrArg _ (complete_eq_onlyCompleted u .illegalCommand _)

/-- `withFetchWord` places a table word in the unit that accepts it, which is that of its command (log entry 8). -/
theorem decode_homeUnit {nbits w : Nat} {i : Instr} (h : decodeTableWord nbits w = some i) :
    decode (homeUnit (BitVec.ofNat 64 (w % 2 ^ nbits))) (BitVec.ofNat 64 (w % 2 ^ nbits)) = .ok i := by
  simp only [decodeTableWord] at h
  split at h
  · cases h
    assumption
  · cases h

/-- A command held as if just accepted runs in the next step when its completion is the next event. -/
theorem step_latchCommand {u : UnitId} {w : Word} {i : Instr} (s : State) (h : decode u w = .ok i) :
    step { latchCommand u w s with events := .complete u :: s.events } = exec i (latchCommand u w s) := by
  cases u <;> exact StateRules.stepRunsTheDecodedCommand _ w i _ s.events rfl rfl rfl h

/-- Settles O6: the unit that accepts the placed word is that of its command. -/
theorem fetchedWordRunsInTheNextStep : Obligations.FetchedWordRunsInTheNextStep := by
  unfold Obligations.FetchedWordRunsInTheNextStep
  intro s nbits w i htable
  have hdecode := decode_homeUnit htable
  rw [Moves.unit_of_decode hdecode]
  exact step_latchCommand s hdecode

/-! ### The words of the assembler (R70) -/

/-- The word of a command whose one operand is `n`: the opcode, and `n` in bits 31:16. -/
theorem encode_operand_toNat {i : Instr} {n : Nat} (hsub : subOf i = 0) (himm : immOf i = BitVec.ofNat 16 n)
    (hn : n ≤ 65535) : (encode i).toNat = (opcodeOf i).toNat ||| (n <<< 16) := by
  have hwidth : (BitVec.ofNat 16 n).toNat = n := Nat.mod_eq_of_lt (by omega)
  rw [encode, hsub, himm]
  simp only [BitVec.toNat_append, hwidth, BitVec.ofNat_eq_ofNat, BitVec.toNat_zero, Nat.zero_shiftLeft, Nat.zero_or,
    Nat.or_zero, ← Nat.shiftLeft_add]
  exact Nat.or_comm ..

/-- Settles O3: the fixed words are evaluated; the words with an operand are laid out for every number. -/
theorem assemblerWordsAreThoseOfTheTable : Obligations.AssemblerWordsAreThoseOfTheTable := by
  unfold Obligations.AssemblerWordsAreThoseOfTheTable
  refine ⟨rfl, rfl, rfl, rfl, rfl, rfl, rfl, rfl, fun _ => rfl, rfl, rfl, rfl, rfl, rfl, rfl, rfl, ?_, ?_⟩
  · intro l
    rw [assemble]
    split_ifs with hl
    · exact congrArg some (encode_operand_toNat rfl rfl hl)
    · rfl
  · intro r
    rw [assemble]
    split_ifs with hr
    · exact congrArg some (encode_operand_toNat rfl rfl hr)
    · rfl

end Sys2Proof.Encoding

/-! The datapath primitives and the texts (40_primitives.md). Each primitive is tied once to its bits, its digits or its
bytes, and the statements are read off these. -/

namespace Sys2Proof.Primitives

open Sys2Proof.Machine Sys2Proof.Safety

/-! ### The exclusive or of integers (R72) -/

/-- Bit `i` of a natural number, by floor division on integers. -/
theorem ofNat_bit (m i : Nat) : Int.ofNat m / 2 ^ i % 2 = ((m.testBit i).toNat : Int) := by
  rw [Nat.toNat_testBit]
  norm_cast

/-- A negative number has the complemented bits of its `negSucc` argument. -/
theorem negSucc_bit (m i : Nat) : Int.negSucc m / 2 ^ i % 2 = 1 - ((m.testBit i).toNat : Int) := by
  have hquot : Int.negSucc m / 2 ^ i = Int.negSucc (m / 2 ^ i) := by
    rw [Int.negSucc_ediv m (by positivity), Int.negSucc_eq]
    norm_cast
  rw [hquot, Nat.toNat_testBit, Int.negSucc_eq]
  omega

/-- The bits of `intXor` are the sums modulo 2 of the operands' bits: a complement of one operand complements the sum, and
two complements cancel. -/
theorem intXor_bit (a b : Int) (i : Nat) : intXor a b / 2 ^ i % 2 = (a / 2 ^ i % 2 + b / 2 ^ i % 2) % 2 := by
  rcases a with m | m <;> rcases b with n | n <;>
    simp only [intXor, ofNat_bit, negSucc_bit, Nat.testBit_xor] <;>
    cases m.testBit i <;> cases n.testBit i <;> rfl

theorem intXor_neg_iff (a b : Int) : intXor a b < 0 ↔ ¬(a < 0 ↔ b < 0) := by
  have hnonneg : ∀ k : Nat, ¬(k : Int) < 0 := fun k => (Int.natCast_nonneg k).not_gt
  rcases a with m | m <;> rcases b with n | n <;> simp [intXor, hnonneg]

/-- The natural number whose bits an integer has as they are (`m`) or complemented (`-m-1`). -/
def magnitude : Int → Nat
  | .ofNat m => m
  | .negSucc m => m

@[simp] theorem magnitude_intXor (a b : Int) : magnitude (intXor a b) = magnitude a ^^^ magnitude b := by
  rcases a with m | m <;> rcases b with n | n <;> rfl

/-- An integer fits in `k` bits and a sign exactly when its magnitude fits in `k` bits. -/
theorem magnitude_lt_iff {z : Int} {k : Nat} : magnitude z < 2 ^ k ↔ -2 ^ k ≤ z ∧ z < 2 ^ k := by
  have hcast : ((2 ^ k : Nat) : Int) = 2 ^ k := by norm_cast
  rcases z with m | m <;> simp only [magnitude, Int.ofNat_eq_natCast, Int.negSucc_eq, ← hcast] <;> omega

/-- `intXor` of two integers of `k` bits and a sign is one again. -/
theorem intXor_mem_range {a b : Int} {k : Nat} (ha : -2 ^ k ≤ a ∧ a < 2 ^ k) (hb : -2 ^ k ≤ b ∧ b < 2 ^ k) :
    -2 ^ k ≤ intXor a b ∧ intXor a b < 2 ^ k := by
  rw [← magnitude_lt_iff] at ha hb ⊢
  rw [magnitude_intXor]
  exact Nat.xor_lt_two_pow ha hb

/-- Settles O47: the bits and the sign by the constructors of the operands; the closed form is the definition of
`intXor`, `-m-1` being `Int.negSucc m`. -/
theorem integerXorIsBitwise : Obligations.IntegerXorIsBitwise := by
  unfold Obligations.IntegerXorIsBitwise
  refine ⟨fun a b => ⟨intXor_bit a b, intXor_neg_iff a b⟩, fun m n => ?_⟩
  have hneg : ∀ k : Nat, -(k : Int) - 1 = Int.negSucc k := fun k => by rw [Int.negSucc_eq]; ring
  rw [hneg, hneg]
  exact ⟨rfl, rfl, rfl, rfl⟩

/-! ### Rotation (R74) -/

/-- The formula of R74 on numbers: the mask is the reduction modulo 2^32, which the right shift does not need. -/
theorem rotl32_toNat (x : Half) (s : Nat) :
    (rotl32 x s).toNat = ((x.toNat <<< s) ||| (x.toNat >>> (32 - s))) &&& 0xFFFFFFFF := by
  have hright : x.toNat >>> (32 - s) < 2 ^ 32 := Nat.lt_of_le_of_lt (Nat.shiftRight_le _ _) x.isLt
  have hmask := Nat.and_two_pow_sub_one_eq_mod ((x.toNat <<< s) ||| (x.toNat >>> (32 - s))) 32
  rw [Nat.or_mod_two_pow, Nat.mod_eq_of_lt hright] at hmask
  rw [rotl32, BitVec.toNat_or, BitVec.toNat_shiftLeft, BitVec.toNat_ushiftRight]
  exact hmask.symm

/-- Bit `j` of a rotation comes from the left shift when `s ≤ j` and from the right shift otherwise. -/
theorem rotl32_getLsbD (x : Half) {s j : Nat} (hs : s ≤ 32) (hj : j < 32) :
    (rotl32 x s).getLsbD j = if s ≤ j then x.getLsbD (j - s) else x.getLsbD (32 - s + j) := by
  rw [rotl32, BitVec.getLsbD_or, BitVec.getLsbD_shiftLeft, BitVec.getLsbD_ushiftRight]
  split
  case isTrue hle =>
    have hpast : x.getLsbD (32 - s + j) = false := BitVec.getLsbD_of_ge x _ (by omega)
    simp [hj, hle, hpast]
  case isFalse hlt => simp [Nat.lt_of_not_le hlt]

/-- Bit `i` moves to bit `(i + s) mod 32`. -/
theorem rotl32_getLsbD_add (x : Half) {s i : Nat} (hs : s ≤ 32) (hi : i < 32) :
    (rotl32 x s).getLsbD ((i + s) % 32) = x.getLsbD i := by
  rw [rotl32_getLsbD x hs (Nat.mod_lt _ (by decide))]
  split <;> congr 1 <;> omega

@[simp] theorem rotl32_zero (x : Half) : rotl32 x 0 = x :=
  BitVec.eq_of_getLsbD_eq fun i hi => by simp [rotl32_getLsbD x (Nat.zero_le 32) hi]

@[simp] theorem rotl32_width (x : Half) : rotl32 x 32 = x :=
  BitVec.eq_of_getLsbD_eq fun i hi => by simp [rotl32_getLsbD x le_rfl hi, Nat.not_le_of_lt hi]

/-- Settles O48: the formula on numbers, the move of a bit, and the two ends. -/
theorem rotationMovesEveryBit : Obligations.RotationMovesEveryBit := by
  unfold Obligations.RotationMovesEveryBit
  exact fun x =>
    ⟨fun s hs => ⟨rotl32_toNat x s, fun _ hi => rotl32_getLsbD_add x hs hi⟩, rotl32_zero x, rotl32_width x⟩

/-! ### Bit reversal and the palindromes (R75 to R77) -/

/-- After `n` steps of the reversal the top `n` bits are in place and the others are 0. -/
theorem reversedBits_getLsbD (v : Word) {n j : Nat} (hn : n ≤ 64) (hj : j < 64) :
    (reversedBits v n).getLsbD j = (decide (63 - j < n) && v.getLsbD (63 - j)) := by
  induction n with
  | zero => simp [reversedBits]
  | succ n ih =>
    have hnew : (if v.getLsbD n then 1#64 <<< (63 - n) else 0).getLsbD j = (decide (63 - n = j) && v.getLsbD n) := by
      split
      case isTrue hset =>
        have hpow := BitVec.getLsbD_twoPow (w := 64) (63 - n) j
        simpa [BitVec.twoPow, hset, show 63 - n < 64 by omega] using hpow
      case isFalse hclear => simp [hclear]
    rw [reversedBits, BitVec.getLsbD_or, ih (by omega), hnew]
    by_cases hplace : 63 - n = j
    · have hsource : 63 - j = n := by omega
      simp [hplace, hsource]
    · have hsource : 63 - j < n + 1 ↔ 63 - j < n := by omega
      simp [hplace, hsource]

theorem rev64_getLsbD (v : Word) {j : Nat} (hj : j < 64) : (rev64 v).getLsbD j = v.getLsbD (63 - j) := by
  rw [rev64, reversedBits_getLsbD v le_rfl hj, decide_eq_true (by omega), Bool.true_and]

/-- Settles O49: the reversal reads bit `63 - j` at bit `j`, here with `j = 63 - i`. -/
theorem bitReversalMirrorsEveryBit : Obligations.BitReversalMirrorsEveryBit := by
  unfold Obligations.BitReversalMirrorsEveryBit
  intro v i hi
  rw [rev64_getLsbD v (by omega), Nat.sub_sub_self (Nat.le_of_lt_succ hi)]

@[simp] theorem rev64_rev64 (v : Word) : rev64 (rev64 v) = v := by
  apply BitVec.eq_of_getLsbD_eq
  intro i hi
  rw [rev64_getLsbD _ hi]
  exact bitReversalMirrorsEveryBit v i hi

/-- The palindromes are the fixed points of the reversal. -/
theorem rev64_eq_self_iff (v : Word) : rev64 v = v ↔ Palindrome v := by
  constructor
  · intro hfix i hi
    rw [← rev64_getLsbD v hi, hfix]
  · intro hpal
    apply BitVec.eq_of_getLsbD_eq
    intro i hi
    rw [rev64_getLsbD v hi, hpal i hi]

/-- `brx64` vanishes on the palindromes alone. -/
theorem brx64_eq_zero_iff (v : Word) : brx64 v = 0 ↔ Palindrome v := by
  rw [← rev64_eq_self_iff, eq_comm (a := rev64 v)]
  exact BitVec.xor_eq_zero_iff

theorem palindrome_brx64 (v : Word) : Palindrome (brx64 v) := by
  intro i hi
  simp only [brx64, BitVec.getLsbD_xor]
  rw [rev64_getLsbD v hi, bitReversalMirrorsEveryBit v i hi, Bool.xor_comm]

/-- Two palindromes with equal lower halves are equal. -/
theorem palindrome_ext {v w : Word} (hv : Palindrome v) (hw : Palindrome w)
    (hlow : v.extractLsb' 0 32 = w.extractLsb' 0 32) : v = w := by
  have hbit : ∀ i, i < 32 → v.getLsbD i = w.getLsbD i := fun i hi => by
    simpa [hi] using congrArg (·.getLsbD i) hlow
  apply BitVec.eq_of_getLsbD_eq
  intro i hi
  rcases Nat.lt_or_ge i 32 with hi' | hi'
  · exact hbit i hi'
  · rw [hv i hi, hw i hi]
    exact hbit _ (by omega)

/-- Settles O50: an output of `brx64` is a palindrome, and (a) to (f) are facts about palindromes. -/
theorem bitReverseXorGivesPalindromes : Obligations.BitReverseXorGivesPalindromes := by
  unfold Obligations.BitReverseXorGivesPalindromes
  refine ⟨by decide, by decide, by decide, fun v => ?_⟩
  have hpal := palindrome_brx64 v
  have hhalves : ∀ i, i < 32 →
      ((brx64 v).extractLsb' 32 32).getLsbD i = ((brx64 v).extractLsb' 0 32).getLsbD (31 - i) := by
    intro i hi
    have hmirror : 63 - (32 + i) = 31 - i := by omega
    have hin : 31 - i < 32 := by omega
    simp only [BitVec.getLsbD_extractLsb', hi, hin, decide_true, Bool.true_and, Nat.zero_add]
    rw [hpal (32 + i) (by omega), hmirror]
  exact ⟨rev64_rev64 v, (rev64_eq_self_iff _).2 hpal, hpal, (brx64_eq_zero_iff _).2 hpal, brx64_eq_zero_iff v, hhalves,
    fun v' hlow => palindrome_ext hpal (palindrome_brx64 v') hlow⟩

/-! ### The avalanche mix (R78, R79) -/

/-- A step `v XOR f(v)` is injective when `f` distributes over XOR and fixes 0 alone: the difference of two numbers with
the same image is a fixed point of `f`. -/
theorem xor_map_injective {f : Nat → Nat} (hxor : ∀ v w, f (v ^^^ w) = f v ^^^ f w) (hfix : ∀ d, f d = d → d = 0) :
    Function.Injective fun v => v ^^^ f v := by
  intro v w himage
  have hpair : (f v ^^^ f w) ^^^ (v ^^^ w) = (v ^^^ f v) ^^^ (w ^^^ f w) := by ac_rfl
  have hdiff : f (v ^^^ w) = v ^^^ w := by
    rw [hxor, ← Nat.xor_eq_zero_iff, hpair, Nat.xor_eq_zero_iff]
    exact himage
  exact Nat.xor_eq_zero_iff.1 (hfix _ hdiff)

theorem xor_shiftRight_injective {k : Nat} (hk : k ≠ 0) : Function.Injective fun v : Nat => v ^^^ (v >>> k) := by
  refine xor_map_injective (fun _ _ => Nat.shiftRight_xor_distrib) fun d hd => ?_
  rw [Nat.shiftRight_eq_div_pow] at hd
  by_contra hne
  exact (Nat.div_lt_self (Nat.pos_of_ne_zero hne) (Nat.one_lt_two_pow hk)).ne hd

theorem xor_shiftLeft_injective {k : Nat} (hk : k ≠ 0) : Function.Injective fun v : Nat => v ^^^ (v <<< k) := by
  refine xor_map_injective (fun _ _ => Nat.shiftLeft_xor_distrib) fun d hd => ?_
  rw [Nat.shiftLeft_eq] at hd
  by_contra hne
  exact (lt_mul_of_one_lt_right (Nat.pos_of_ne_zero hne) (Nat.one_lt_two_pow hk)).ne' hd

/-- The mix is its three steps one after the other, each injective. -/
theorem avalancheMix_injective : Function.Injective avalancheMix :=
  (xor_shiftRight_injective (k := 17) (by decide)).comp
    ((xor_shiftLeft_injective (k := 7) (by decide)).comp (xor_shiftRight_injective (k := 13) (by decide)))

/-- A xor with one's own right shift needs no further bit. -/
theorem xor_shiftRight_lt {v n : Nat} (k : Nat) (hv : v < 2 ^ n) : v ^^^ (v >>> k) < 2 ^ n :=
  Nat.xor_lt_two_pow hv (Nat.lt_of_le_of_lt (Nat.shiftRight_le v k) hv)

/-- A xor with one's own left shift needs as many bits more as the shift. -/
theorem xor_shiftLeft_lt {v n : Nat} (k : Nat) (hv : v < 2 ^ n) : v ^^^ (v <<< k) < 2 ^ (n + k) := by
  have hwide : v < 2 ^ (n + k) := Nat.lt_of_lt_of_le hv (Nat.pow_le_pow_right (by decide) (Nat.le_add_right n k))
  have hshift : v <<< k < 2 ^ (n + k) := by
    rw [Nat.shiftLeft_eq, pow_add]
    exact Nat.mul_lt_mul_of_pos_right hv (by positivity)
  exact Nat.xor_lt_two_pow hwide hshift

/-- Only the left shift widens, by 7 bits. -/
theorem avalancheMix_lt {v n k : Nat} (hv : v < 2 ^ n) (hk : n + 7 = k) : avalancheMix v < 2 ^ k :=
  hk ▸ xor_shiftRight_lt 17 (xor_shiftLeft_lt 7 (xor_shiftRight_lt 13 hv))

/-- Settles O51: two values, then the bound and the injectivity step by step. -/
theorem avalancheMixIsInjective : Obligations.AvalancheMixIsInjective := by
  unfold Obligations.AvalancheMixIsInjective
  exact ⟨by decide, by decide, fun _ hv => avalancheMix_lt hv rfl, fun _ _ himage => avalancheMix_injective himage⟩

/-! ### The digits of a text (R81, R82)

The model's digits are Mathlib's `Nat.digits`, which stand least significant first. -/

/-- With fuel for every digit, the digits are put in front, most significant first. -/
theorem digitsOnto_eq {b : Nat} (hb : 1 < b) (fuel : Nat) {n : Nat} (acc : List Nat) (h : n < b ^ fuel) :
    digitsOnto b fuel n acc = (Nat.digits b n).reverse ++ acc := by
  induction fuel generalizing n acc with
  | zero =>
    obtain rfl : n = 0 := by simpa using h
    simp [digitsOnto]
  | succ fuel ih =>
    unfold digitsOnto
    split
    case isTrue hzero => simp [hzero]
    case isFalse hpos =>
      have hdiv : n / b < b ^ fuel := Nat.div_lt_of_lt_mul (by rwa [pow_succ'] at h)
      rw [ih _ hdiv, Nat.digits_def' hb (Nat.pos_of_ne_zero hpos)]
      simp

theorem digitsOf_eq {b : Nat} (hb : 1 < b) (n : Nat) : digitsOf b n = (Nat.digits b n).reverse := by
  have hfuel : n < b ^ (Nat.log2 n + 1) := Nat.lt_of_lt_of_le Nat.lt_log2_self (Nat.pow_le_pow_left hb _)
  rw [digitsOf, digitsOnto_eq hb _ [] hfuel, List.append_nil]

theorem numeral_of_pos {b n : Nat} (hb : 1 < b) (hn : 0 < n) : numeral b n = (Nat.digits b n).reverse := by
  rw [numeral, if_neg hn.ne', digitsOf_eq hb]

/-- A numeral has one digit more than the logarithm, zero included. -/
theorem numeral_length {b : Nat} (hb : 1 < b) (n : Nat) : (numeral b n).length = Nat.log b n + 1 := by
  rcases Nat.eq_zero_or_pos n with rfl | hn
  · simp [numeral]
  · rw [numeral_of_pos hb hn, List.length_reverse, Nat.length_digits b n hb hn.ne']

/-- A number below `b ^ k` is written with one to `k` digits. -/
theorem numeral_length_mem_range {b n k : Nat} (hb : 1 < b) (hk : k ≠ 0) (hn : n < b ^ k) :
    1 ≤ (numeral b n).length ∧ (numeral b n).length ≤ k := by
  rw [numeral_length hb]
  exact ⟨Nat.le_add_left 1 _, Nat.log_lt_of_lt_pow' hk hn⟩

theorem lt_of_mem_numeral {b n d : Nat} (hb : 1 < b) (hn : 0 < n) (hd : d ∈ numeral b n) : d < b := by
  rw [numeral_of_pos hb hn, List.mem_reverse] at hd
  exact Nat.digits_lt_base hb hd

/-- No leading zero: the first digit is the last one of Mathlib's list. -/
theorem numeral_head_ne_zero {b n : Nat} (hb : 1 < b) (hn : 0 < n) : ∃ d rest, numeral b n = d :: rest ∧ d ≠ 0 := by
  have hne : Nat.digits b n ≠ [] := Nat.digits_ne_nil_iff_ne_zero.2 hn.ne'
  refine ⟨_, (Nat.digits b n).dropLast.reverse, ?_, Nat.getLast_digit_ne_zero b hn.ne'⟩
  rw [numeral_of_pos hb hn]
  conv_lhs => rw [← List.dropLast_append_getLast hne]
  simp

/-- The base-`b` value of the digits is the number. -/
theorem numeral_value {b n : Nat} (hb : 1 < b) (hn : 0 < n) : (numeral b n).foldl (fun a d => a * b + d) 0 = n := by
  rw [numeral_of_pos hb hn, List.foldl_reverse]
  calc (Nat.digits b n).foldr (fun d a => a * b + d) 0
    _ = Nat.ofDigits b (Nat.digits b n) := by
      rw [Nat.ofDigits_eq_foldr]
      simp only [Nat.cast_id, Nat.add_comm, Nat.mul_comm]
    _ = n := Nat.ofDigits_digits b n

theorem dec_natCast (n : Nat) : dec (n : Int) = (numeral 10 n).map digitByte := rfl

theorem dec_neg {n : Nat} (hn : 0 < n) : dec (-(n : Int)) = 0x2D#8 :: dec n := by
  obtain ⟨m, rfl⟩ := Nat.exists_eq_succ_of_ne_zero hn.ne'
  rfl

/-- Settles O53: the digits are those of the numeral in base 10, whose bytes are all of the first kind. -/
theorem decimalTextReadsBack : Obligations.DecimalTextReadsBack := by
  unfold Obligations.DecimalTextReadsBack
  refine ⟨rfl, fun n hn => ⟨numeral 10 n, ?_, ?_, ?_, ?_⟩, fun n hn => dec_neg hn⟩
  · rw [dec_natCast]
    exact List.map_congr_left fun d hd => if_pos (lt_of_mem_numeral (by decide) hn hd)
  · exact fun d hd => lt_of_mem_numeral (by decide) hn hd
  · exact numeral_head_ne_zero (by decide) hn
  · exact numeral_value (by decide) hn

theorem hexU_length (n : Nat) : (hexU n).length = Nat.log 16 n + 1 := by
  rw [hexU, List.length_map, numeral_length (by decide)]

/-- Settles O54: the digits are those of the numeral in base 16, and the length is read off the logarithm. -/
theorem hexTextReadsBack : Obligations.HexTextReadsBack := by
  unfold Obligations.HexTextReadsBack
  refine ⟨rfl, fun n hn => ⟨numeral 16 n, ?_, ?_, ?_, ?_⟩, fun n _ => ?_, fun n hn => ?_⟩
  · have hdigit : ∀ d, digitByte d = if d ≤ 9 then BitVec.ofNat 8 (0x30 + d) else BitVec.ofNat 8 (0x41 + d - 10) := by
      intro d
      have hletter : 10 ≤ d → 0x41 + (d - 10) = 0x41 + d - 10 := by omega
      rcases Nat.lt_or_ge d 10 with hd | hd
      · rw [digitByte, if_pos hd, if_pos (Nat.le_of_lt_succ hd)]
      · rw [digitByte, if_neg (Nat.not_lt.2 hd), if_neg (Nat.not_le.2 hd), hletter hd]
    exact List.map_congr_left fun d _ => hdigit d
  · exact fun d hd => lt_of_mem_numeral (by decide) hn hd
  · exact numeral_head_ne_zero (by decide) hn
  · exact numeral_value (by decide) hn
  · rw [hexU_length, Nat.add_comm]
  · have hlog : Nat.log 16 n = 63 ↔ 2 ^ 252 ≤ n ∧ n < 2 ^ 256 := Nat.log_eq_iff (Or.inl (by decide))
    rw [hexU_length]
    constructor
    · intro hlen
      exact (hlog.1 (Nat.succ.inj hlen)).1
    · intro hlow
      rw [hlog.2 ⟨hlow, hn⟩]

/-! ### The digest as a number (R85) -/

/-- The first byte is the most significant. -/
theorem bigEndian_cons (b : Byte) (m : List Byte) : bigEndian (b :: m) = b.toNat * 256 ^ m.length + bigEndian m := by
  induction m using List.reverseRecOn with
  | nil => simp [bigEndian]
  | append_singleton m c ih =>
    have hsnoc : ∀ p : List Byte, bigEndian (p ++ [c]) = bigEndian p * 256 + c.toNat := fun p => by simp [bigEndian]
    rw [← List.cons_append, hsnoc, ih, hsnoc, List.length_append, List.length_singleton, pow_succ]
    ring

/-- A big-endian number as the sum of its bytes, byte `j` weighted by 256 to the number of bytes after it. -/
theorem bigEndian_eq_sum (m : List Byte) :
    bigEndian m = ((List.range m.length).map fun j => (m.getD j 0).toNat * 256 ^ (m.length - 1 - j)).sum := by
  induction m with
  | nil => rfl
  | cons b m ih =>
    rw [bigEndian_cons, List.length_cons, List.range_succ_eq_map, List.map_cons, List.sum_cons, List.map_map, ih]
    simp [Function.comp_def, Nat.sub_sub, Nat.add_comm]

@[simp] theorem bytesOfWord_length (x : Half) : (bytesOfWord x).length = 4 := rfl

@[simp] theorem bytesOfLength_length (l : Nat) : (bytesOfLength l).length = 8 := rfl

@[simp] theorem sha256_length (m : List Byte) : (sha256 m).length = 32 := by
  simp [sha256, shaDigest]

/-- Settles O55: a big-endian number is the sum of its weighted bytes, here of 32. -/
theorem hashIntegerIsTheBigEndianDigest : Obligations.HashIntegerIsTheBigEndianDigest := by
  unfold Obligations.HashIntegerIsTheBigEndianDigest
  intro m
  have hsum := bigEndian_eq_sum (sha256 m)
  rw [sha256_length] at hsum
  exact ⟨sha256_length m, hsum, StateRules.hashint_lt m⟩

/-! ### The padding of a message (R83, R86) -/

/-- The zeros fill the last block: the padded length is the first multiple of 64 with room for 9 bytes more. -/
theorem shaPad_length (m : List Byte) : (shaPad m).length = 64 * ((m.length + 72) / 64) := by
  simp only [shaPad, List.length_append, List.length_singleton, List.length_replicate, bytesOfLength_length]
  omega

/-- Settles O56: the shape is the definition of `shaPad`, and the counts are its length. -/
theorem shaPaddingFillsWholeBlocks : Obligations.ShaPaddingFillsWholeBlocks := by
  unfold Obligations.ShaPaddingFillsWholeBlocks
  intro m
  rw [shaPad_length]
  exact ⟨Nat.mul_mod_right 64 _, ⟨_, rfl⟩, by omega, by omega⟩

/-! ### The widths of a key generation (R80) -/

/-- A number below `10 ^ k` on both sides of 0 is written with one to `k` digits and perhaps a sign. -/
theorem dec_length_mem_range {z : Int} {k : Nat} (hk : k ≠ 0) (hlow : -10 ^ k < z) (hhigh : z < 10 ^ k) :
    1 ≤ (dec z).length ∧ (dec z).length ≤ k + 1 := by
  have hdigits : ∀ n : Nat, (n : Int) < 10 ^ k → 1 ≤ (numeral 10 n).length ∧ (numeral 10 n).length ≤ k :=
    fun n hn => numeral_length_mem_range (by decide) hk (by exact_mod_cast hn)
  rcases z with n | n
  · have hlen := hdigits n hhigh
    simp only [dec, List.length_map]
    omega
  · have hlen := hdigits (n + 1) (by rw [Int.negSucc_eq] at hlow; push_cast; omega)
    simp only [dec, List.length_cons, List.length_map]
    omega

/-- A natural number is written without a sign. -/
theorem dec_natCast_length_mem_range {n k : Nat} (hk : k ≠ 0) (hn : n < 10 ^ k) :
    1 ≤ (dec n).length ∧ (dec n).length ≤ k := by
  rw [dec_natCast, List.length_map]
  exact numeral_length_mem_range (by decide) hk hn

theorem seedInt_mem_range (ssign : Bool) (seed : Word) :
    -2 ^ 63 ≤ seedInt ssign seed ∧ seedInt ssign seed ≤ 2 ^ 64 - 1 := by
  cases ssign with
  | false =>
    have hunsigned : uint seed < 2 ^ 64 := seed.isLt
    rw [seedInt, if_neg Bool.false_ne_true]
    omega
  | true =>
    have hlow : -2 ^ 63 ≤ sint seed := BitVec.le_toInt seed
    have hhigh : sint seed < 2 ^ 63 := BitVec.toInt_lt
    rw [seedInt, if_pos rfl]
    omega

theorem genStart_mem_range (ssign : Bool) (seed : Word) {count : Nat} (hcount : count ≤ 2 ^ 64 - 2) :
    -2 ^ 84 ≤ genStart (seedInt ssign seed) count ∧ genStart (seedInt ssign seed) count < 2 ^ 84 := by
  obtain ⟨hlow, hhigh⟩ := seedInt_mem_range ssign seed
  exact intXor_mem_range (by omega) (by push_cast; omega)

theorem genMixed_lt (seed : Int) (count : Nat) : genMixed seed count < 2 ^ 263 :=
  avalancheMix_lt (StateRules.hashint_lt _) rfl

/-- The drawn time has 64 bits, so it does not widen the mix. -/
theorem genCombined_lt {seed : Int} {count k : Nat} (hmixed : genMixed seed count < 2 ^ k) (hk : 64 ≤ k) (t : Word) :
    genCombined seed count t < 2 ^ k :=
  Nat.xor_lt_two_pow hmixed (t.isLt.trans_le (Nat.pow_le_pow_right (by decide) hk))

/-- Settles O52: 2^84 is below 10^26 and 2^263 below 10^80, which bounds the two texts. -/
theorem keyPipelineStaysInItsWidths : Obligations.KeyPipelineStaysInItsWidths := by
  unfold Obligations.KeyPipelineStaysInItsWidths
  intro ssign seed t count hcount
  obtain ⟨hlow, hhigh⟩ := genStart_mem_range ssign seed hcount
  have hcombined := genCombined_lt (genMixed_lt (seedInt ssign seed) count) (by decide) t
  have hraw : genRaw (seedInt ssign seed) count t < 2 ^ 256 := StateRules.hashint_lt _
  refine ⟨seedInt_mem_range ssign seed, ⟨Nat.mul_le_mul_right _ hcount, by omega⟩, ⟨hlow, hhigh⟩, ?_,
    StateRules.hashint_lt _, genMixed_lt _ _, t.isLt, hcombined, ?_, hraw, ?_⟩
  · exact dec_length_mem_range (k := 26) (by decide) (by omega) (by omega)
  · exact dec_natCast_length_mem_range (k := 80) (by decide) (by omega)
  · exact ⟨by rw [hexU_length]; omega, StateRules.hexU_length_le (by decide) hraw⟩

end Sys2Proof.Primitives

/-! The statements about the hash-mix unit (41_hash_mix.md): the exact next state of HM.INIT, HM.INITT and HM.GEN on a
latched command, and the key window a host reads without a key and after a generation. -/

namespace Sys2Proof.HashMixRules

open Sys2Proof.Machine Sys2Proof.Laws Sys2Proof.Safety Sys2Proof.StateRules
open Sys2Proof.MemoryRules Sys2Proof.Encoding Sys2Proof.Primitives

/-! ### The constructions (R87, R88) -/

/-- The seed's value by its upper bit: the two's complement reading when it is signed (10_state.md R20). -/
theorem seedInt_signed (x : Word) :
    seedInt true x = if x.toNat < 2 ^ 63 then (x.toNat : Int) else (x.toNat : Int) - 2 ^ 64 := by
  have hvalue : seedInt true x = sint x := rfl
  rw [hvalue, sint, BitVec.toInt_eq_toNat_cond]
  split_ifs <;> omega

theorem seedInt_unsigned (x : Word) : seedInt false x = x.toNat := rfl

section
variable {s : State} {p : HmLatch}

theorem exec_hmInit (signed : Bool) (hlatch : s.hm.pend = some p) :
    exec (.hmInit signed) s = .next (complete .hm .ok (s.withHm (constructHm s.hm p.seedIn signed))) :=
  withHmLatch_some s p _ hlatch

theorem exec_hmInitt (hlatch : s.hm.pend = some p) :
    exec .hmInitt s = .next (complete .hm .ok ((afterDraw s).withHm (constructHm s.hm (drawnTime s) false))) :=
  withHmLatch_some s p _ hlatch

end

/-- A draw with listed values takes the first one off. -/
theorem afterDraw_cons {s : State} {t : Word} {later : List Word} (h : s.timeFeed = t :: later) :
    afterDraw s = { s with timeFeed := later, drawCount := s.drawCount + 1 } := by
  rw [afterDraw, h, List.tail_cons]

/-- A draw with no listed value is counted and takes nothing off. -/
theorem afterDraw_nil {s : State} (h : s.timeFeed = []) : afterDraw s = { s with drawCount := s.drawCount + 1 } := by
  rw [afterDraw, h, List.tail_nil, ← h]

/-- Settles O19: HM.INIT completes on the constructed generator, and the seed's reading is that of its pattern. -/
theorem hmInitConstructsTheGenerator : Obligations.HmInitConstructsTheGenerator := by
  unfold Obligations.HmInitConstructsTheGenerator
  exact ⟨fun signed _ _ hlatch => exec_hmInit signed hlatch, fun x => ⟨seedInt_signed x, seedInt_unsigned x⟩⟩

/-- Settles O20, by the two ways a draw is answered. -/
theorem hmInittDrawsTheSeed : Obligations.HmInittDrawsTheSeed := by
  unfold Obligations.HmInittDrawsTheSeed
  constructor
  · intro s p t later hlatch hfeed
    rw [exec_hmInitt hlatch, drawnTime_cons s t later hfeed, afterDraw_cons hfeed]
    rfl
  · intro s p hlatch hfeed
    rw [exec_hmInitt hlatch, drawnTime_nil s hfeed, afterDraw_nil hfeed]
    rfl

/-! ### The four outcomes of HM.GEN (R89, 60_exceptions.md R109) -/

section
variable {s : State} {p : HmLatch} {len : BitVec 16}

theorem exec_hmGen_notInitialised (hlatch : s.hm.pend = some p) (hinit : s.hm.status.init = false) :
    exec (.hmGen len) s = .next (complete .hm .notInitialised s) :=
  (withHmLatch_some s p _ hlatch).trans (if_pos hinit)

theorem exec_hmGen_invalidArgument (hlatch : s.hm.pend = some p) (hinit : s.hm.status.init = true)
    (hlen : len = 0) : exec (.hmGen len) s = .next (complete .hm .invalidArgument s) :=
  (withHmLatch_some s p _ hlatch).trans <| (if_neg (by simp [hinit])).trans (if_pos hlen)

theorem exec_hmGen_countExhausted (hlatch : s.hm.pend = some p) (hinit : s.hm.status.init = true)
    (hlen : len ≠ 0) (hcount : uint s.hm.count = 2 ^ 64 - 1) :
    exec (.hmGen len) s = .next (complete .hm .countExhausted s) :=
  (withHmLatch_some s p _ hlatch).trans <| (if_neg (by simp [hinit])).trans <| (if_neg hlen).trans (if_pos hcount)

theorem exec_hmGen_ok (hlatch : s.hm.pend = some p) (hinit : s.hm.status.init = true) (hlen : len ≠ 0)
    (hcount : uint s.hm.count ≠ 2 ^ 64 - 1) :
    exec (.hmGen len) s = .next (complete .hm .ok ((afterDraw s).withHm (storeKey s.hm len (drawnTime s)))) :=
  (withHmLatch_some s p _ hlatch).trans <| (if_neg (by simp [hinit])).trans <| (if_neg hlen).trans (if_neg hcount)

end

/-- Settles O22, one outcome of HM.GEN for each code; an error is `complete` alone. -/
theorem hmGenErrorsInOrder : Obligations.HmGenErrorsInOrder := by
  unfold Obligations.HmGenErrorsInOrder
  intro len s p hlatch
  refine ⟨fun hinit => ?_, fun hinit hlen => ?_, fun hinit hlen hcount => ?_⟩
  · rw [exec_hmGen_notInitialised hlatch hinit, complete_eq_onlyCompleted]
    rfl
  · rw [exec_hmGen_invalidArgument hlatch hinit (BitVec.eq_of_toNat_eq hlen), complete_eq_onlyCompleted]
    rfl
  · rw [exec_hmGen_countExhausted hlatch hinit (fun h => hlen (congrArg BitVec.toNat h)) hcount,
      complete_eq_onlyCompleted]
    rfl

/-! ### The stored key (R89 from step 7 on) -/

/-- Bits cut out of a number's pattern are the number shifted down, if they all lie inside the pattern. -/
theorem extractLsb'_ofNat (n : Nat) {w k len : Nat} (hinside : k + len ≤ w) :
    (BitVec.ofNat w n).extractLsb' k len = BitVec.ofNat len (n / 2 ^ k) := by
  apply BitVec.eq_of_getLsbD_eq
  intro i hi
  have hbit : k + i < w := by omega
  rw [BitVec.getLsbD_extractLsb', BitVec.getLsbD_ofNat, BitVec.getLsbD_ofNat, Nat.testBit_div_two_pow, Nat.add_comm i]
  simp [hbit]

/-- HM.GEN's results, register by register. -/
theorem storeKey_eq {h : Hm} {raw : Nat} {t : Word} (len : BitVec 16)
    (hraw : raw = genRaw (seedInt h.ssign h.seed) (uint h.count) t) :
    storeKey h len t = { h with
      rawkey0 := BitVec.ofNat 64 raw, rawkey1 := BitVec.ofNat 64 (raw / 2 ^ 64)
      rawkey2 := BitVec.ofNat 64 (raw / 2 ^ 128), rawkey3 := BitVec.ofNat 64 (raw / 2 ^ 192)
      hexlen := BitVec.ofNat 7 (hexU raw).length, keylen := len, time := t
      count := BitVec.ofNat 64 (h.count.toNat + 1) } := by
  have hlowest : (BitVec.ofNat 256 raw).extractLsb' 0 64 = BitVec.ofNat 64 raw := by
    rw [extractLsb'_ofNat raw (by decide), pow_zero, Nat.div_one]
  have hcount : BitVec.ofNat 64 (h.count.toNat + 1) = h.count + 1 := by
    rw [BitVec.ofNat_add, BitVec.ofNat_toNat, BitVec.setWidth_eq]
    rfl
  rw [storeKey, ← hraw, hlowest, extractLsb'_ofNat raw (by decide), extractLsb'_ofNat raw (by decide),
    extractLsb'_ofNat raw (by decide), hcount]

/-- Settles O21: the success of HM.GEN, with the pipeline's steps put together and the stored registers spelled out. -/
theorem hmGenStoresTheKey : Obligations.HmGenStoresTheKey := by
  unfold Obligations.HmGenStoresTheKey
  intro len s p raw hlatch hinit hlen hcount hraw
  have hlen' : len ≠ 0 := fun hzero => hlen.ne' (congrArg BitVec.toNat hzero)
  have hpipeline : raw = genRaw (seedInt s.hm.ssign s.hm.seed) (uint s.hm.count) (drawnTime s) := by
    rw [hraw, genRaw, genCombined, genMixed, genHashed, genStart]
    push_cast
    rfl
  rw [exec_hmGen_ok hlatch hinit hlen' hcount.ne, storeKey_eq len hpipeline, ← completeStatus_ok hinit]
  rfl

/-! ### The key window (R90, R91) -/

/-- A one-byte read of the key window is the key byte there. -/
theorem memRead_window_byte (s : State) {o : Offset} {i : Nat} (ho : o.toNat = 0x10000 + i) :
    (memRead s o .b1).toNat = (keyByte s.hm i).toNat := by
  have hindex : o.toNat - 0x10000 = i := by omega
  rw [memRead_window_aligned s (by omega) (Nat.mod_one _), hindex]
  exact Nat.add_zero _

theorem keyByte_of_le {h : Hm} {i : Nat} (hi : h.keylen.toNat ≤ i) : keyByte h i = 0 :=
  if_neg hi.not_gt

theorem littleEndian_replicate_zero (n : Nat) : littleEndian (List.replicate n 0) = 0 := by
  induction n with
  | zero => rfl
  | succ n ih => rw [List.replicate_succ, littleEndian, ih]; rfl

/-- Past the key every window byte is 0, so a window of any width is. -/
theorem windowBytes_of_le {h : Hm} {i : Nat} (w : Width) (hi : h.keylen.toNat ≤ i) :
    windowBytes h i w = List.replicate w.bytes 0 := by
  rw [List.eq_replicate_iff]
  refine ⟨length_windowBytes h i w, fun b hb => ?_⟩
  obtain ⟨j, -, rfl⟩ := List.mem_map.1 hb
  exact keyByte_of_le (hi.trans (Nat.le_add_right i j))

/-- Settles O16: with HM_KEYLEN 0 every byte of the window is past the key. -/
theorem keyWindowReadsZeroWithoutAKey : Obligations.KeyWindowReadsZeroWithoutAKey := by
  unfold Obligations.KeyWindowReadsZeroWithoutAKey
  intro s o width hlen ho
  by_cases haligned : o.toNat % width.bytes = 0
  · have hpast : s.hm.keylen.toNat ≤ o.toNat - 0x10000 := by simp [hlen]
    apply BitVec.eq_of_toNat_eq
    rw [memRead_window_aligned s ho haligned, windowBytes_of_le width hpast, littleEndian_replicate_zero]
    rfl
  · exact memRead_window_misaligned s ho haligned

/-- The byte of a digit below 16 is `0` to `9` or `A` to `F`. -/
theorem digitByte_toNat_mem_range {d : Nat} (hd : d < 16) :
    (0x30 ≤ (digitByte d).toNat ∧ (digitByte d).toNat ≤ 0x39) ∨
      (0x41 ≤ (digitByte d).toNat ∧ (digitByte d).toNat ≤ 0x46) := by
  revert d
  decide

/-- Every character of a hexadecimal text is an uppercase hexadecimal digit (40_primitives.md R82). -/
theorem toNat_mem_range_of_mem_hexU {n : Nat} {b : Byte} (hb : b ∈ hexU n) :
    (0x30 ≤ b.toNat ∧ b.toNat ≤ 0x39) ∨ (0x41 ≤ b.toNat ∧ b.toNat ≤ 0x46) := by
  obtain ⟨d, hd, rfl⟩ := List.mem_map.1 hb
  apply digitByte_toNat_mem_range
  rcases Nat.eq_zero_or_pos n with rfl | hn
  · obtain rfl : d = 0 := by simpa [numeral] using hd
    decide
  · exact lt_of_mem_numeral (by decide) hn hd

section
variable {h : Hm} {len : BitVec 16} {t : Word} {raw : Nat}

/-- HM_HEXLEN has room for the length of the key's text, which is at most 64 (R80). -/
theorem hexlen_storeKey (hraw : raw = genRaw (seedInt h.ssign h.seed) (uint h.count) t) :
    (storeKey h len t).hexlen.toNat = (hexU raw).length := by
  have hlength : (hexU raw).length ≤ 64 := hexU_length_le (by decide) (hraw ▸ hashint_lt _)
  rw [storeKey_eq len hraw, BitVec.toNat_ofNat]
  exact Nat.mod_eq_of_lt (by omega)

/-- Below its length the key repeats the text of the raw key. -/
theorem keyByte_storeKey {i : Nat} (hraw : raw = genRaw (seedInt h.ssign h.seed) (uint h.count) t)
    (hi : i < len.toNat) : (hexU raw)[i % (hexU raw).length]? = some (keyByte (storeKey h len t) i) := by
  have hkey : (rawKey (storeKey h len t)).toNat = raw := by
    rw [rawKey_storeKey, ← hraw, BitVec.toNat_ofNat]
    exact Nat.mod_eq_of_lt (hraw ▸ hashint_lt _)
  have hindex : i % (hexU raw).length < (hexU raw).length := Nat.mod_lt _ (by rw [hexU_length]; omega)
  have hlen : i < (storeKey h len t).keylen.toNat := hi
  rw [keyByte, if_pos hlen, hkey, hexlen_storeKey hraw, List.getD_eq_getElem _ _ hindex,
    List.getElem?_eq_getElem hindex]

/-- Below its limit the count does not wrap (10_state.md R21). -/
theorem count_storeKey (hcount : uint h.count ≠ 2 ^ 64 - 1) :
    (storeKey h len t).count.toNat = h.count.toNat + 1 := by
  have hlimit := h.count.isLt
  rw [storeKey_eq len rfl, BitVec.toNat_ofNat]
  exact Nat.mod_eq_of_lt (by simp only [uint] at hcount; omega)

end

/-- HM.GEN with code 0 is its success: each of its errors posts another code. -/
theorem exec_hmGen_next_ok {len : BitVec 16} {s t : State} (hexec : exec (.hmGen len) s = .next t)
    (hcode : t.hm.status.errcode = 0) :
    uint s.hm.count ≠ 2 ^ 64 - 1 ∧
      t = complete .hm .ok ((afterDraw s).withHm (storeKey s.hm len (drawnTime s))) := by
  obtain ⟨p, -, ⟨-, rfl⟩ | ⟨-, -, rfl⟩ | ⟨-, -, -, rfl⟩ | ⟨-, -, hcount, rfl⟩⟩ := execHmGen_next hexec
  · cases hcode
  · cases hcode
  · cases hcode
  · exact ⟨hcount, rfl⟩

/-! ### Successive starts (R91 (c)) -/

theorem intXor_cancel_left (a b : Int) : intXor a (intXor a b) = b := by
  rcases a with m | m <;> rcases b with n | n <;> simp only [intXor, xor_cancel_left]

/-- Counts with one start are one count: XOR with the seed can be undone, and 1000003 is positive. -/
theorem genStart_injective (seed : Int) : Function.Injective (genStart seed) := by
  intro count count' hstart
  have hproduct := (Function.LeftInverse.injective (intXor_cancel_left seed)) hstart
  exact Nat.eq_of_mul_eq_mul_right (by decide) (Int.ofNat.inj hproduct)

/-- Settles O59: an HM.GEN with code 0 stored its results, whose window is read byte by byte. -/
theorem successfulGenerationProperties : Obligations.SuccessfulGenerationProperties := by
  unfold Obligations.SuccessfulGenerationProperties
  constructor
  · intro len s t hexec hcode
    obtain ⟨hcount, rfl⟩ := exec_hmGen_next_ok hexec hcode
    refine ⟨fun i o ho => ⟨fun hi => ?_, fun hi => ?_⟩, rfl, count_storeKey (t := drawnTime s) (len := len) hcount⟩
    · have hchar := keyByte_storeKey (h := s.hm) (t := drawnTime s) rfl hi
      rw [memRead_window_byte _ ho]
      have htext := congrArg (Option.map BitVec.toNat) hchar
      exact ⟨toNat_mem_range_of_mem_hexU (List.mem_of_getElem? hchar), _, rfl, htext⟩
    · apply BitVec.eq_of_toNat_eq
      rw [memRead_window_byte _ ho, keyByte_of_le hi]
      rfl
  · exact fun seed count hstart => Nat.succ_ne_self count (genStart_injective seed hstart).symm

end Sys2Proof.HashMixRules

/-! The statements about the subkey schedule (42_subkey_schedule.md): the closed form of the derivation, from which its
corner cases are read off, and the exact next state of SK.INIT and SK.INITT on a latched command. -/

namespace Sys2Proof.SubkeyRules

open Sys2Proof.Machine Sys2Proof.Laws Sys2Proof.Safety
open Sys2Proof.Primitives Sys2Proof.HashMixRules

/-! ### The closed form (R94) -/

/-- Two rotations are one: a bit that wraps around does so in one of the two or in their sum, and never twice. -/
theorem rotl32_rotl32 (x : Half) {a b : Nat} (hsum : a + b < 32) : rotl32 (rotl32 x a) b = rotl32 x (a + b) := by
  apply BitVec.eq_of_getLsbD_eq
  intro j hj
  rw [rotl32_getLsbD _ (by omega) hj, rotl32_getLsbD x hsum.le hj]
  by_cases hb : b ≤ j
  · rw [if_pos hb, rotl32_getLsbD x (by omega) (by omega), if_congr (Nat.le_sub_iff_add_le hb) rfl rfl]
    split <;> congr 1 <;> omega
  · rw [if_neg hb, rotl32_getLsbD x (by omega) (by omega), if_pos (by omega), if_neg (by omega)]
    congr 1
    omega

/-- The rotation amounts of `n` rounds from round `r` on, added up. -/
def shiftSum (r n : Nat) : Nat := ((List.range' r n).map roundShift).sum

theorem shiftSum_succ (r n : Nat) : shiftSum r (n + 1) = roundShift r + shiftSum (r + 1) n := by
  rw [shiftSum, List.range'_succ, List.map_cons, List.sum_cons, shiftSum]

/-- The row CUM of R92 is the sums from round 0 on. -/
theorem cumulativeShift_eq_shiftSum (r : Fin 16) : cumulativeShift[r.val] = shiftSum 0 (r.val + 1) := by
  revert r
  decide

theorem cumulativeShift_lt (r : Fin 16) : cumulativeShift[r.val] < 32 := by
  revert r
  decide

/-- The lanes carried over to a round are the first lanes, rotated by the sum of the amounts so far. -/
theorem getElem_deriveRounds {n i : Nat} (r : Nat) (high low : Half) (hi : i < (deriveRounds n r high low).length)
    (hsum : shiftSum r (i + 1) < 32) :
    (deriveRounds n r high low)[i] =
      roundSubkey (rotl32 high (shiftSum r (i + 1))) (rotl32 low (shiftSum r (i + 1))) (r + i) := by
  induction n generalizing r high low i with
  | zero => exact absurd hi (Nat.not_lt_zero i)
  | succ n ih =>
    rw [shiftSum_succ] at hsum ⊢
    cases i with
    | zero => rfl
    | succ i =>
      rw [← rotl32_rotl32 high hsum, ← rotl32_rotl32 low hsum, ← Nat.succ_add_eq_add_succ r i]
      exact ih (r + 1) _ _ _ (by omega)

/-- A subkey depends on the key and its round alone. -/
theorem getElem_derive (mk : Word) (r : Fin 16) :
    (derive mk)[r.val] =
      roundSubkey (rotl32 (highLane mk) cumulativeShift[r.val]) (rotl32 (lowLane mk) cumulativeShift[r.val]) r.val := by
  have hsum := cumulativeShift_eq_shiftSum r
  have hround := getElem_deriveRounds (n := 16) (i := r.val) 0 (highLane mk) (lowLane mk) (by simp)
    (hsum ▸ cumulativeShift_lt r)
  rwa [Nat.zero_add, ← hsum] at hround

/-- Settles O57: the closed form with the reduction modulo 32 put in, the row CUM, and the composition of rotations. -/
theorem derivationHasTheClosedForm : Obligations.DerivationHasTheClosedForm := by
  unfold Obligations.DerivationHasTheClosedForm
  refine ⟨fun mk r => ?_, fun r => ⟨?_, cumulativeShift_lt r⟩, fun x _ _ hsum => rotl32_rotl32 x hsum⟩
  · rw [getElem_derive, Nat.mod_eq_of_lt (cumulativeShift_lt r), Nat.mul_comm 12345]
    rfl
  · rw [cumulativeShift_eq_shiftSum, shiftSum, List.range_eq_range']

/-! ### The corner cases (R95) -/

/-- The subkey of a palindromic round is the round's constant, since `brx64` vanishes. -/
theorem roundSubkey_of_palindrome {high low : Half} (r : Nat) (hpal : Palindrome (high ++ low : BitVec 64)) :
    roundSubkey high low r = BitVec.ofNat 64 (12345 * r) := by
  rw [roundSubkey, (brx64_eq_zero_iff _).2 hpal, zero_add, Nat.mul_comm]

/-- A rotation moves equal bits to equal bits. -/
theorem rotl32_of_uniform {x : Half} {b : Bool} {s : Nat} (hbits : ∀ i, i < 32 → x.getLsbD i = b) (hs : s ≤ 32) :
    rotl32 x s = x := by
  apply BitVec.eq_of_getLsbD_eq
  intro j hj
  rw [rotl32_getLsbD x hs hj, hbits j hj]
  split <;> exact hbits _ (by omega)

theorem palindrome_of_uniform {v : Word} {b : Bool} (hbits : ∀ i, i < 64 → v.getLsbD i = b) : Palindrome v :=
  fun i hi => (hbits i hi).trans (hbits (63 - i) (by omega)).symm

theorem highLane_append_lowLane (mk : Word) : (highLane mk ++ lowLane mk : BitVec 64) = mk := by
  have hjoin : (highLane mk ++ lowLane mk : BitVec 64) = mk.extractLsb' 0 64 :=
    BitVec.extractLsb'_append_extractLsb'_eq_extractLsb' rfl
  rw [hjoin, BitVec.extractLsb'_eq_self]

/-- A key of 64 equal bits keeps its lanes in every round, and they form a palindrome. -/
theorem getElem_derive_of_uniform {mk : Word} {b : Bool} (hbits : ∀ i, i < 64 → mk.getLsbD i = b) (r : Fin 16) :
    (derive mk)[r.val] = BitVec.ofNat 64 (12345 * r.val) := by
  have hhigh : ∀ i, i < 32 → (highLane mk).getLsbD i = b := fun i hi => by
    simp [highLane, hi, hbits (32 + i) (by omega)]
  have hlow : ∀ i, i < 32 → (lowLane mk).getLsbD i = b := fun i hi => by
    simp [lowLane, hi, hbits i (by omega)]
  have hshift := (cumulativeShift_lt r).le
  rw [getElem_derive, rotl32_of_uniform hhigh hshift, rotl32_of_uniform hlow hshift]
  apply roundSubkey_of_palindrome
  rw [highLane_append_lowLane]
  exact palindrome_of_uniform hbits

theorem getElem_derive_zero (r : Fin 16) : (derive 0)[r.val] = BitVec.ofNat 64 (12345 * r.val) :=
  getElem_derive_of_uniform (fun _ _ => BitVec.getLsbD_zero) r

theorem getElem_derive_allOnes (r : Fin 16) :
    (derive 0xFFFFFFFFFFFFFFFF)[r.val] = BitVec.ofNat 64 (12345 * r.val) :=
  getElem_derive_of_uniform (b := true) (by decide) r

/-- Round 0 adds the constant 0. -/
theorem roundSubkey_zero (high low : Half) : roundSubkey high low 0 = brx64 (high ++ low : BitVec 64) := by
  rw [roundSubkey, Nat.zero_mul]
  exact BitVec.add_zero _

theorem palindrome_first_subkey (mk : Word) : Palindrome (derive mk)[0] := by
  have hround : (derive mk)[0] = brx64 _ := (getElem_derive mk 0).trans (roundSubkey_zero _ _)
  rw [hround]
  exact palindrome_brx64 _

/-- Settles O58: a palindromic round leaves its constant, the two keys of equal bits have such rounds only and so share
their schedule, and the first subkey is an output of `brx64`. -/
theorem derivationCornerCases : Obligations.DerivationCornerCases := by
  unfold Obligations.DerivationCornerCases
  refine ⟨fun mk r hpal => ?_, fun r => ⟨getElem_derive_zero r, getElem_derive_allOnes r⟩, fun mk => ?_,
    0, 0xFFFFFFFFFFFFFFFF, by decide, ?_⟩
  · rw [getElem_derive]
    exact roundSubkey_of_palindrome r.val hpal
  · have hpal := palindrome_first_subkey mk
    exact ⟨hpal, (brx64_eq_zero_iff _).2 hpal⟩
  · apply Vector.ext
    intro i hi
    exact (getElem_derive_zero ⟨i, hi⟩).trans (getElem_derive_allOnes ⟨i, hi⟩).symm

/-! ### The constructions (R97, R98) -/

section
variable {s : State} {p : SkLatch}

theorem exec_skInit (hlatch : s.sk.pend = some p) :
    exec .skInit s = .next (complete .sk .ok (s.withSk (constructSk s.sk p.keyIn))) :=
  withSkLatch_some s p _ hlatch

theorem exec_skInitt (hlatch : s.sk.pend = some p) :
    exec .skInitt s =
      .next (complete .sk .ok ((afterDraw s).withSk (constructSk s.sk (milliseconds (drawnTime s))))) :=
  withSkLatch_some s p _ hlatch

end

/-- The milliseconds of a draw are natural, so the integer reading of `bits64` is that of the number (60_exceptions.md
R117). -/
theorem milliseconds_eq (t : Word) : milliseconds t = BitVec.ofNat 64 (t.toNat / 1000) := by
  rw [milliseconds, bits64, BitVec.ofInt_natCast]

/-- Settles O23: SK.INIT completes on the schedule of the latched key. -/
theorem skInitDerivesTheSchedule : Obligations.SkInitDerivesTheSchedule := by
  unfold Obligations.SkInitDerivesTheSchedule
  exact fun _ _ hlatch => exec_skInit hlatch

/-- Settles O24, by the two ways a draw is answered. -/
theorem skInittDerivesFromTheTime : Obligations.SkInittDerivesFromTheTime := by
  unfold Obligations.SkInittDerivesFromTheTime
  constructor
  · intro s p t later hlatch hfeed
    rw [exec_skInitt hlatch, drawnTime_cons s t later hfeed, afterDraw_cons hfeed, milliseconds_eq]
    rfl
  · intro s p hlatch hfeed
    rw [exec_skInitt hlatch, drawnTime_nil s hfeed, afterDraw_nil hfeed, milliseconds_eq]
    rfl

end Sys2Proof.SubkeyRules

/-! The statements about subkey consumption and ranged sampling (43_sampling.md): the exact next state of SK.RAW and
SK.RANGE on a latched command, the values they post, and a run of raw samples. -/

namespace Sys2Proof.SamplingRules

open Sys2Proof.Machine Sys2Proof.Laws Sys2Proof.Safety Sys2Proof.Moves Sys2Proof.StateRules
open Sys2Proof.Primitives Sys2Proof.Encoding Sys2Proof.SubkeyRules

/-! ### The outcomes of SK.RAW and SK.RANGE (R99, R100, 60_exceptions.md R109) -/

section
variable {s : State} {p : SkLatch}

theorem exec_skRaw_notInitialised (hlatch : s.sk.pend = some p) (hinit : s.sk.status.init = false) :
    exec .skRaw s = .next (complete .sk .notInitialised s) :=
  (withSkLatch_some s p _ hlatch).trans (if_pos hinit)

theorem exec_skRaw_ok (hlatch : s.sk.pend = some p) (hinit : s.sk.status.init = true) :
    exec .skRaw s = .next (complete .sk .ok (s.withSk (consumeSubkey s.sk (rawValue s.sk)))) :=
  (withSkLatch_some s p _ hlatch).trans (if_neg (by simp [hinit]))

theorem exec_skRange_notInitialised (hlatch : s.sk.pend = some p) (hinit : s.sk.status.init = false) :
    exec .skRange s = .next (complete .sk .notInitialised s) :=
  (withSkLatch_some s p _ hlatch).trans (if_pos hinit)

theorem exec_skRange_invalidArgument (hlatch : s.sk.pend = some p) (hinit : s.sk.status.init = true)
    (hlt : rangeMax p < rangeMin p) : exec .skRange s = .next (complete .sk .invalidArgument s) :=
  (withSkLatch_some s p _ hlatch).trans <| (if_neg (by simp [hinit])).trans (if_pos hlt)

theorem exec_skRange_ok (hlatch : s.sk.pend = some p) (hinit : s.sk.status.init = true)
    (hle : rangeMin p ≤ rangeMax p) :
    exec .skRange s =
      .next (complete .sk .ok (s.withSk (consumeSubkey s.sk (bits64 (rangeResult p (rawValue s.sk)))))) :=
  (withSkLatch_some s p _ hlatch).trans <| (if_neg (by simp [hinit])).trans (if_neg (not_lt.mpr hle))

end

/-- The advance of the cursor is addition modulo 16. -/
theorem cursor_succ_toNat (c : BitVec 4) : (c + 1).toNat = (c.toNat + 1) % 16 := BitVec.toNat_add c 1

theorem cursor_succ (c : BitVec 4) : c + 1 = BitVec.ofNat 4 ((c.toNat + 1) % 16) := by
  rw [← cursor_succ_toNat, BitVec.ofNat_toNat, BitVec.setWidth_eq]

/-- A consuming command changes SK alone. -/
theorem complete_consumeSubkey {s : State} (result : Word) (hinit : s.sk.status.init = true) :
    complete .sk .ok (s.withSk (consumeSubkey s.sk result)) = { s with sk := { s.sk with
      cursor := BitVec.ofNat 4 ((s.sk.cursor.toNat + 1) % 16), result := result
      pend := none, status := finished s.sk.status true 0 } } := by
  rw [← cursor_succ, ← completeStatus_ok hinit]
  rfl

/-- Settles O25, one outcome of SK.RAW for each value of INIT. -/
theorem skRawConsumesOneSubkey : Obligations.SkRawConsumesOneSubkey := by
  unfold Obligations.SkRawConsumesOneSubkey
  intro s p hlatch
  refine ⟨fun hinit => ?_, fun hinit => ?_⟩
  · rw [exec_skRaw_ok hlatch hinit, complete_consumeSubkey _ hinit]
    rfl
  · rw [exec_skRaw_notInitialised hlatch hinit, complete_eq_onlyCompleted]
    rfl

/-- Settles O26, one outcome of SK.RANGE for each code. -/
theorem skRangeSamplesExactly : Obligations.SkRangeSamplesExactly := by
  unfold Obligations.SkRangeSamplesExactly
  intro s p hlatch
  refine ⟨fun hinit hle => ?_, fun hinit => ?_, fun hinit hlt => ?_⟩
  · rw [exec_skRange_ok hlatch hinit hle, complete_consumeSubkey _ hinit]
    rfl
  · rw [exec_skRange_notInitialised hlatch hinit, complete_eq_onlyCompleted]
    rfl
  · rw [exec_skRange_invalidArgument hlatch hinit hlt, complete_eq_onlyCompleted]
    rfl

/-! ### The values posted (R102 (c), (d)) -/

/-- The exact result lies between the bounds: a remainder modulo the span is below the span. -/
theorem rangeResult_mem_range {p : SkLatch} (r : Word) (hle : rangeMin p ≤ rangeMax p) :
    rangeMin p ≤ rangeResult p r ∧ rangeResult p r ≤ rangeMax p := by
  have hspan : 0 < rangeSpan p := by
    unfold rangeSpan
    omega
  have hlow := Int.emod_nonneg (uint r : Int) hspan.ne'
  have hhigh := Int.emod_lt_of_pos (uint r : Int) hspan
  unfold rangeResult
  unfold rangeSpan at hlow hhigh ⊢
  omega

/-- A number between two signed 64-bit numbers is read back from its pattern. -/
theorem sint_bits64 {z : Int} {a b : Word} (hlow : sint a ≤ z) (hhigh : z ≤ sint b) : sint (bits64 z) = z :=
  BitVec.toInt_ofInt_eq_self (by decide) (le_trans a.le_toInt hlow) (lt_of_le_of_lt hhigh b.toInt_lt)

/-- Settles O44: the exact result lies between the bounds, so its pattern reads back as it. -/
theorem rangeResultIsInRange : Obligations.RangeResultIsInRange := by
  unfold Obligations.RangeResultIsInRange
  intro s p hlatch hinit hle
  obtain ⟨hlow, hhigh⟩ := rangeResult_mem_range (rawValue s.sk) hle
  have hread : sint (bits64 (rangeResult p (rawValue s.sk))) = rangeResult p (rawValue s.sk) := sint_bits64 hlow hhigh
  exact ⟨_, exec_skRange_ok hlatch hinit hle, hlow.trans_eq hread.symm, hread.trans_le hhigh⟩

/-- The first subkey of a schedule is a palindrome, whatever the master key. -/
theorem rawValue_of_cursor_zero {k : Sk} (hsched : k.subkey = derive k.master) (hcursor : k.cursor = 0) :
    rawValue k = 0 := by
  have hfirst : subkeyAt k k.cursor = (derive k.master)[0] := by
    simp [subkeyAt, hcursor, hsched]
  rw [rawValue, hfirst, brx64_eq_zero_iff]
  exact palindrome_first_subkey k.master

/-- With the raw value 0 a ranged sample is its minimum. -/
theorem bits64_rangeResult_zero (p : SkLatch) : bits64 (rangeResult p 0) = p.min := by
  have hzero : rangeResult p 0 = sint p.min := by simp [rangeResult, rangeMin]
  rw [hzero, bits64, BitVec.ofInt_toInt]

/-- Settles O43: a consistent constructed unit holds a derived schedule, whose value at cursor 0 is 0. -/
theorem rawValueAtCursorZeroIsZero : Obligations.RawValueAtCursorZeroIsZero := by
  unfold Obligations.RawValueAtCursorZeroIsZero
  rintro s p ⟨-, -, -, -, hsched, -⟩ hinit hcursor hlatch
  rw [ScheduleDerived, if_pos hinit] at hsched
  have hraw := rawValue_of_cursor_zero hsched hcursor
  refine ⟨⟨_, exec_skRaw_ok hlatch hinit, hraw⟩, fun hle => ⟨_, exec_skRange_ok hlatch hinit hle, ?_⟩⟩
  rw [hraw]
  exact bits64_rangeResult_zero p

/-! ### A sampling command from its acceptance to its completion (10_state.md R38, R39) -/

/-- An idle SK unit after it accepted the word `w`. -/
def acceptedSk (k : Sk) (w : Word) : Sk := { k with pend := some (skSnapshot k w), status := acceptStatus k.status }

/-- An idle SK unit after it accepted the word `w` and completed it as a sample with the given result. -/
def sampledSk (k : Sk) (w result : Word) : Sk := completedSk (consumeSubkey (acceptedSk k w) result) .ok

@[simp] theorem acceptedSk_busy (k : Sk) (w : Word) : (acceptedSk k w).status.busy = true := rfl
@[simp] theorem sampledSk_result (k : Sk) (w result : Word) : (sampledSk k w result).result = result := rfl

section
variable {s : State} {k : Sk} {i : Instr}

/-- An accepted SK command runs at the completion of the unit. -/
theorem completion_acceptedSk (hsk : s.sk = acceptedSk k (encode i)) (hunit : i.unit = .sk) :
    completion .sk s = exec i s := by
  have hbusy : unitBusy .sk s = true := by rw [unitBusy, hsk, acceptedSk_busy]
  have hword : latchedWord .sk s = some (encode i) := by rw [latchedWord, hsk]; rfl
  have hdecode : decode .sk (encode i) = .ok i := hunit ▸ decode_encode i
  simp only [completion, completeWord, hbusy, hword, hdecode, if_true]

/-- An accepted SK.RAW completes on a constructed unit with the raw value. -/
theorem completion_skRaw (hsk : s.sk = acceptedSk k (encode .skRaw)) (hinit : k.status.init = true) :
    completion .sk s = .next (s.withSk (sampledSk k (encode .skRaw) (rawValue k))) := by
  have hlatch : s.sk.pend = some (skSnapshot k (encode .skRaw)) := by rw [hsk]; rfl
  rw [completion_acceptedSk hsk rfl, exec_skRaw_ok hlatch (by rw [hsk]; exact hinit), hsk]
  rfl

/-- The same as a step, when that completion is the next event. -/
theorem step_completes_skRaw {rest : List Event} (hevents : s.events = .complete .sk :: rest)
    (hsk : s.sk = acceptedSk k (encode .skRaw)) (hinit : k.status.init = true) :
    step s = .next { s with events := rest, sk := sampledSk k (encode .skRaw) (rawValue k) } :=
  (step_listed hevents).trans (completion_skRaw (s := { s with events := rest }) hsk hinit)

/-- What a ranged sample of the operand registers posts. -/
def rangeSample (k : Sk) : Word := bits64 (rangeResult (skSnapshot k (encode .skRange)) (rawValue k))

/-- An accepted SK.RANGE completes on a constructed unit, with its bounds in order, with the ranged sample. -/
theorem completion_skRange (hsk : s.sk = acceptedSk k (encode .skRange)) (hinit : k.status.init = true)
    (hle : sint k.min ≤ sint k.max) :
    completion .sk s = .next (s.withSk (sampledSk k (encode .skRange) (rangeSample k))) := by
  have hlatch : s.sk.pend = some (skSnapshot k (encode .skRange)) := by rw [hsk]; rfl
  rw [completion_acceptedSk hsk rfl, exec_skRange_ok hlatch (by rw [hsk]; exact hinit) hle, hsk]
  rfl

end

/-! ### A run of raw samples (R102 (b), (e)) -/

/-- A run goes on from where its first step led. -/
theorem run_succ {s t : State} (n : Nat) (h : step s = .next t) :
    Host.Core.run core (n + 1) s = Host.Core.run core n t := by
  simp only [Host.Core.run, show core.step s = .next t from h]

/-- The schedule alone decides the subkey at a place. -/
theorem subkeyAt_congr {k k' : Sk} (h : k.subkey = k'.subkey) (c : BitVec 4) : subkeyAt k c = subkeyAt k' c := by
  simp only [subkeyAt, h]

/-- The machine after one raw sample of a host, with `rest` still to come: the command was accepted and completed, and
its result read. -/
def afterRawSample (host : Nat) (rest : List Event) (s : State) : State :=
  hostRead host (regOffset .skResult) .b8
    { s with sk := sampledSk s.sk (encode .skRaw) (rawValue s.sk), events := rest }

theorem afterRawSample_values (host : Nat) (rest : List Event) (s : State) :
    (afterRawSample host rest s).readLog.map Reading.value = s.readLog.map Reading.value ++ [rawValue s.sk] := by
  simp [afterRawSample, hostRead, readReg]

/-- The three events of a raw sample lead there. -/
theorem run_rawSample {s : State} {host : Nat} {rest : List Event} (n : Nat)
    (hevents : s.events = .write host (regOffset .skCmd) .b8 (encode .skRaw) :: .complete .sk ::
      .read host (regOffset .skResult) .b8 :: rest)
    (hidle : s.sk.status.busy = false) (hinit : s.sk.status.init = true) :
    Host.Core.run core (n + 3) s = Host.Core.run core n (afterRawSample host rest s) := by
  have haccept := step_write_reg .skCmd hevents
  rw [writeReg, acceptSk_idle _ _ hidle] at haccept
  have hcomplete := step_completes_skRaw (k := s.sk) (s := { s with
    sk := acceptedSk s.sk (encode .skRaw)
    events := .complete .sk :: .read host (regOffset .skResult) .b8 :: rest }) rfl rfl hinit
  exact (run_succ _ haccept).trans ((run_succ _ hcomplete).trans (run_succ n rfl))

/-- The place `j` past the next cursor is the place `j + 1` past this one. -/
theorem ofNat_cursor_succ_add (c : BitVec 4) (j : Nat) :
    BitVec.ofNat 4 ((c + 1).toNat + j) = BitVec.ofNat 4 (c.toNat + (j + 1)) := by
  apply BitVec.eq_of_toNat_eq
  rw [BitVec.toNat_ofNat, BitVec.toNat_ofNat, cursor_succ_toNat]
  omega

/-- The values of `n` raw samples from the cursor on. -/
def rawValues (k : Sk) (n : Nat) : List Word :=
  (List.range n).map fun j => brx64 (subkeyAt k (BitVec.ofNat 4 (k.cursor.toNat + j)))

/-- The first value is that at the cursor; the others are those from the next cursor on. -/
theorem rawValues_succ {k k' : Sk} (n : Nat) (hsubkey : k'.subkey = k.subkey) (hcursor : k'.cursor = k.cursor + 1) :
    rawValues k (n + 1) = rawValue k :: rawValues k' n := by
  have hfirst : BitVec.ofNat 4 (k.cursor.toNat + 0) = k.cursor := by
    rw [Nat.add_zero, BitVec.ofNat_toNat, BitVec.setWidth_eq]
  rw [rawValues, List.range_succ_eq_map, List.map_cons, List.map_map, hfirst]
  refine congrArg (rawValue k :: ·) (List.map_congr_left fun j _ => ?_)
  rw [hcursor, ofNat_cursor_succ_add, subkeyAt_congr hsubkey]
  rfl

/-- Settles O42, by induction on the number of samples: each leads to a constructed idle unit whose cursor is one place
further on the same schedule. -/
theorem rawSamplingReadsTheScheduleRoundRobin : Obligations.RawSamplingReadsTheScheduleRoundRobin := by
  unfold Obligations.RawSamplingReadsTheScheduleRoundRobin
  intro host n
  induction n with
  | zero =>
    intro s hevents _ _
    exact ⟨s, rfl, hevents, rfl, (Nat.mod_eq_of_lt s.sk.cursor.isLt).symm, (List.append_nil _).symm⟩
  | succ n ih =>
    intro s hevents hidle hinit
    obtain ⟨t, hrun, hdone, hsubkey, hcursor, hvalues⟩ :=
      ih (afterRawSample host (rawSampling host n) s) rfl rfl hinit
    have hnext : (afterRawSample host (rawSampling host n) s).sk.cursor = s.sk.cursor + 1 := rfl
    have hcons : rawValues s.sk (n + 1) =
        rawValue s.sk :: rawValues (afterRawSample host (rawSampling host n) s).sk n := rawValues_succ n rfl hnext
    refine ⟨t, (run_rawSample _ hevents hidle hinit).trans hrun, hdone, hsubkey, ?_, ?_⟩
    · rw [hcursor, hnext, cursor_succ_toNat]
      omega
    · rw [hvalues, afterRawSample_values, List.append_assoc]
      exact congrArg _ hcons.symm

end Sys2Proof.SamplingRules

/-! The ranged sample as a host's program (30_encoding.md R71, 43_sampling.md R103). The run of a program in any
interleaving is `run_programEvents` on an invariant that relates what is left of the program to the SK unit. -/

namespace Sys2Proof.HostPrograms

open Sys2Proof.Machine Sys2Proof.Laws Sys2Proof.Safety Sys2Proof.Moves Sys2Proof.StateRules
open Sys2Proof.SamplingRules

/-! ### Any event of a machine whose latches match BUSY (10_state.md R36, 60_exceptions.md R110) -/

theorem hmLatch_of_latchedWord {s : State} (h : (latchedWord .hm s).isSome) : ∃ p, s.hm.pend = some p := by
  simpa [latchedWord, Option.isSome_iff_exists] using h

theorem skLatch_of_latchedWord {s : State} (h : (latchedWord .sk s).isSome) : ∃ p, s.sk.pend = some p := by
  simpa [latchedWord, Option.isSome_iff_exists] using h

/-- A command answers a next state when its unit holds a latched word: its branches are errors and successes. -/
theorem exec_answers {i : Instr} {s : State} (hlatched : (latchedWord i.unit s).isSome) :
    ∃ t, exec i s = .next t := by
  cases i with
  | hmInit | hmInitt =>
    obtain ⟨p, hp⟩ := hmLatch_of_latchedWord hlatched
    exact ⟨_, withHmLatch_some s p _ hp⟩
  | hmGen =>
    obtain ⟨p, hp⟩ := hmLatch_of_latchedWord hlatched
    rw [exec, execHmGen, withHmLatch_some s p _ hp]
    split_ifs <;> exact ⟨_, rfl⟩
  | skInit | skInitt | pxBrx =>
    obtain ⟨p, hp⟩ := skLatch_of_latchedWord hlatched
    exact ⟨_, withSkLatch_some s p _ hp⟩
  | skRaw | skRange | pxRotl =>
    obtain ⟨p, hp⟩ := skLatch_of_latchedWord hlatched
    simp only [exec, execSkRaw, execSkRange, execPxRotl, withSkLatch_some s p _ hp]
    split_ifs <;> exact ⟨_, rfl⟩

/-- A BUSY unit holds a latched word. -/
theorem latchedWord_isSome {s : State} (hlatch : LatchMatchesBusy s) (u : UnitId) :
    (latchedWord u s).isSome = unitBusy u s := by
  cases u with
  | hm => simpa [latchedWord, unitBusy] using hlatch.1
  | sk => simpa [latchedWord, unitBusy] using hlatch.2

theorem completion_answers {s : State} (hlatch : LatchMatchesBusy s) (u : UnitId) :
    ∃ t, completion u s = .next t := by
  by_cases hbusy : unitBusy u s = true
  · have hlatched := (latchedWord_isSome hlatch u).trans hbusy
    obtain ⟨w, hw⟩ := Option.isSome_iff_exists.mp hlatched
    simp only [completion, completeWord, hbusy, hw, if_true]
    cases hdecode : decode u w with
    | ok i => exact exec_answers (by rwa [unit_of_decode hdecode])
    | error e => exact ⟨_, rfl⟩
  · exact ⟨s, if_neg hbusy⟩

theorem applyEvent_answers {s : State} (hlatch : LatchMatchesBusy s) (e : Event) :
    ∃ t, applyEvent e s = .next t := by
  cases e with
  | complete u => exact completion_answers hlatch u
  | read | write | reset => exact ⟨_, rfl⟩

/-- An event is a step of the machine that lists it, so the latches still match BUSY after it. -/
theorem latchMatchesBusy_applyEvent {e : Event} {s t : State} (hlatch : LatchMatchesBusy s)
    (h : applyEvent e s = .next t) : LatchMatchesBusy t := by
  have hstep : step (withEvents s (e :: s.events)) = .next t := h
  exact ⟨latch_of_hmMove (step_hmMove hstep) hlatch.1, latch_of_skMove (step_skMove hstep) hlatch.2⟩

/-! ### The events of the other agents (30_encoding.md R71) -/

/-- What one host has read, oldest first. -/
def ownReadings (host : Nat) (s : State) : List Reading := s.readLog.filter fun r => r.host = host

/-- A completion records no reading. -/
theorem completion_readLog {u : UnitId} {s t : State} (h : completion u s = .next t) : t.readLog = s.readLog := by
  rcases completion_next h with ⟨-, rfl⟩ | ⟨w, i, -, -, -, hexec⟩ | ⟨w, e, -, -, -, rfl⟩
  · rfl
  · obtain ⟨-, -, -, hlog, -⟩ := Scope.commandsLeaveTheOtherUnitAlone i s t hexec
    exact hlog
  · exact complete_readLog u _ s

/-- A completion of one unit leaves the other unit as it is. -/
theorem completion_otherUnit {u : UnitId} {s t : State} (h : completion u s = .next t) :
    (u = .hm → t.sk = s.sk) ∧ (u = .sk → t.hm = s.hm) := by
  rcases completion_next h with ⟨-, rfl⟩ | ⟨w, i, -, -, hdecode, hexec⟩ | ⟨w, e, -, -, -, rfl⟩
  · exact ⟨fun _ => rfl, fun _ => rfl⟩
  · obtain ⟨hsk, hhm, -⟩ := Scope.commandsLeaveTheOtherUnitAlone i s t hexec
    obtain rfl := unit_of_decode hdecode
    exact ⟨hsk, hhm⟩
  · constructor <;> rintro rfl <;> rfl

/-- A register outside SK's block is not SK's. -/
theorem writeReg_sk_of_outside (s : State) (v : Word) {r : Reg}
    (hout : (regOffset r).toNat < 0x100 ∨ 0x200 ≤ (regOffset r).toNat) : (writeReg s v r).sk = s.sk := by
  cases r with
  | skCmd | skStatus | skKeyIn | skMin | skMax | pxIn => exact absurd hout (by decide)
  | _ => rfl

theorem writeReg_readLog (s : State) (v : Word) (r : Reg) : (writeReg s v r).readLog = s.readLog := by
  cases r <;> rfl

/-- The other agents read nothing for the host, and do nothing to SK but complete its command. -/
theorem sk_of_leavesSkTo {host : Nat} {e : Event} {s t : State} (hleaves : LeavesSkTo host e)
    (h : applyEvent e s = .next t) :
    ownReadings host t = ownReadings host s ∧
      (t.sk = s.sk ∨ (s.sk.status.busy = true ∧ completion .sk s = .next t)) := by
  cases e with
  | read other o w =>
    cases h
    exact ⟨by simpa [ownReadings, hostRead] using show other ≠ host from hleaves, .inl rfl⟩
  | write other o w v =>
    cases h
    rcases memWrite_cases s o w v with hkept | ⟨r, -, hreg, hwrite⟩
    · rw [hkept]
      exact ⟨rfl, .inl rfl⟩
    · rw [hwrite, ownReadings, writeReg_readLog]
      obtain rfl := regOffset_of_regAt hreg
      exact ⟨rfl, .inl (writeReg_sk_of_outside s v hleaves.2)⟩
  | complete u =>
    refine ⟨by rw [ownReadings, completion_readLog h, ownReadings], ?_⟩
    cases u with
    | hm => exact .inl ((completion_otherUnit h).1 rfl)
    | sk =>
      by_cases hbusy : s.sk.status.busy = true
      · exact .inr ⟨hbusy, h⟩
      · have hkept : completion .sk s = .next s := if_neg hbusy
        cases hkept.symm.trans h
        exact .inl rfl
  | reset => cases hleaves

/-! ### The ranged sample (43_sampling.md R100, R103) -/

/-- WAIT and the read of the result, the end of a sampling program. -/
def resultOps (host : Nat) : List HostOp := [.poll host .sk, .once (.read host (regOffset .skResult) .b8)]

/-- The bus operations of a ranged sample. -/
def rangeOps (host : Nat) (min max : Word) : List HostOp :=
  .once (.write host (regOffset .skMin) .b8 min) :: .once (.write host (regOffset .skMax) .b8 max) ::
    .once (.write host (regOffset .skCmd) .b8 (encode .skRange)) :: resultOps host

theorem programOps_expandRange (host : Nat) (min max : Word) :
    programOps host (expandRange min max) = some (rangeOps host min max) := rfl

/-- The SK unit with the bounds written. -/
def bounded (k : Sk) (min max : Word) : Sk := { k with min := min, max := max }

/-- The SK unit after the ranged sample. -/
def ranged (k : Sk) (min max : Word) : Sk :=
  sampledSk (bounded k min max) (encode .skRange) (rangeSample (bounded k min max))

/-- What the host reads at the end. -/
def rangeReading (host : Nat) (k : Sk) (min max : Word) : Reading :=
  { host := host, off := regOffset .skResult, width := .b8, value := rangeSample (bounded k min max) }

/-- How far a ranged sample begun on the SK unit `k` has come: what is left of the program, for the SK unit `now` and the
host's readings `rs`. While WAIT polls, the completion may or may not have come. -/
inductive RangeProgress (host : Nat) (k : Sk) (min max : Word) (now : Sk) (rs : List Reading) : List HostOp → Prop
  | start (hsk : now = k) : RangeProgress host k min max now rs (rangeOps host min max)
  | minWritten (hsk : now = { k with min := min }) : RangeProgress host k min max now rs (rangeOps host min max).tail
  | maxWritten (hsk : now = bounded k min max) : RangeProgress host k min max now rs (rangeOps host min max).tail.tail
  | accepted (hsk : now = acceptedSk (bounded k min max) (encode .skRange)) :
      RangeProgress host k min max now rs (resultOps host)
  | completed (hsk : now = ranged k min max) : RangeProgress host k min max now rs (resultOps host)
  | waited (hsk : now = ranged k min max) : RangeProgress host k min max now rs (resultOps host).tail
  | finished (hsk : now = ranged k min max) (hlast : rs.getLast? = some (rangeReading host k min max)) :
      RangeProgress host k min max now rs []

section
variable {host : Nat} {k : Sk} {min max : Word}

/-- An idle unit waits for the host; a BUSY one holds the accepted sample. -/
theorem RangeProgress.accepted_of_busy {now : Sk} {rs : List Reading} {ops : List HostOp}
    (hidle : k.status.busy = false) (hprogress : RangeProgress host k min max now rs ops)
    (hbusy : now.status.busy = true) :
    ops = resultOps host ∧ now = acceptedSk (bounded k min max) (encode .skRange) := by
  cases hprogress with
  | accepted hsk => exact ⟨rfl, hsk⟩
  | start hsk | minWritten hsk | maxWritten hsk =>
    subst hsk
    exact absurd (hidle.symm.trans hbusy) (by decide)
  | completed hsk | waited hsk | finished hsk =>
    subst hsk
    cases hbusy

/-- An event of the other agents keeps the progress; the completion of the accepted sample moves it on. -/
theorem RangeProgress.afterOther {ops : List HostOp} {e : Event} {s t : State} (hidle : k.status.busy = false)
    (hinit : k.status.init = true) (hle : sint min ≤ sint max) (hleaves : LeavesSkTo host e)
    (hprogress : RangeProgress host k min max s.sk (ownReadings host s) ops) (h : applyEvent e s = .next t) :
    RangeProgress host k min max t.sk (ownReadings host t) ops := by
  obtain ⟨hreadings, hkept | ⟨hbusy, hcompletion⟩⟩ := sk_of_leavesSkTo hleaves h
  · rwa [hreadings, hkept]
  · obtain ⟨rfl, hsk⟩ := hprogress.accepted_of_busy hidle hbusy
    cases (completion_skRange hsk hinit hle).symm.trans hcompletion
    exact .completed rfl

/-- A write at a register's offset is the register's own effect. -/
theorem applyEvent_write_reg (s : State) (r : Reg) (v : Word) :
    applyEvent (.write host (regOffset r) .b8 v) s = .next (writeReg s v r) := by
  rw [applyEvent, memWrite_reg]

/-- An access of the host moves its program on, except a poll of the BUSY unit. -/
theorem RangeProgress.afterHost {op : HostOp} {rest : List HostOp} {s t : State} (hidle : k.status.busy = false)
    (hprogress : RangeProgress host k min max s.sk (ownReadings host s) (op :: rest))
    (h : applyEvent op.event s = .next t) :
    RangeProgress host k min max t.sk (ownReadings host t) (opsAfter op rest s) ∧ t.hm = s.hm := by
  cases hprogress with
  | start hsk =>
    cases (applyEvent_write_reg s .skMin min).symm.trans h
    exact ⟨.minWritten (by rw [← hsk]; rfl), rfl⟩
  | minWritten hsk =>
    cases (applyEvent_write_reg s .skMax max).symm.trans h
    exact ⟨.maxWritten (by rw [writeReg, withSk_sk, hsk]; rfl), rfl⟩
  | maxWritten hsk =>
    cases (applyEvent_write_reg s .skCmd (encode .skRange)).symm.trans h
    exact ⟨.accepted (by rw [writeReg, withSk_sk, hsk]; exact acceptSk_idle (bounded k min max) _ hidle), rfl⟩
  | accepted hsk =>
    cases h
    rw [opsAfter_poll, if_pos (by rw [unitBusy, hsk, acceptedSk_busy])]
    exact ⟨.accepted hsk, rfl⟩
  | completed hsk =>
    cases h
    rw [opsAfter_poll, if_neg (by rw [unitBusy, hsk]; exact Bool.false_ne_true)]
    exact ⟨.waited hsk, rfl⟩
  | waited hsk =>
    cases h
    exact ⟨.finished hsk (by simp [ownReadings, hostRead, hsk, readReg, rangeReading, ranged]), rfl⟩

end

/-! ### The run of the program in any interleaving (70_reset_and_hazards.md R132) -/

/-- The other agents do nothing in these turns but complete SK's commands. -/
def OnlySkCompletions (turns : List Turn) : Prop := ∀ e, Turn.other e ∈ turns → e = .complete .sk

/-- An event that leaves SK to the host and, if `skOnly` holds, is a completion of SK. -/
def Allowed (host : Nat) (skOnly : Prop) (e : Event) : Prop := LeavesSkTo host e ∧ (skOnly → e = .complete .sk)

/-- What holds turn by turn of a ranged sample begun in the state `s₀`, while the other agents' events are allowed. -/
structure RangeRun (host : Nat) (s₀ : State) (min max : Word) (skOnly : Prop) (ops : List HostOp) (s : State) :
    Prop where
  latch : LatchMatchesBusy s
  progress : RangeProgress host s₀.sk min max s.sk (ownReadings host s) ops
  hmKept : skOnly → s.hm = s₀.hm

section
variable {host : Nat} {s₀ : State} {min max : Word} {skOnly : Prop}

/-- The other agents' part of `run_programEvents`. -/
theorem RangeRun.afterOther {ops : List HostOp} {e : Event} {s : State} (hidle : s₀.sk.status.busy = false)
    (hinit : s₀.sk.status.init = true) (hle : sint min ≤ sint max)
    (he : Allowed host skOnly e) (hrun : RangeRun host s₀ min max skOnly ops s) :
    ∃ t, applyEvent e s = .next t ∧ RangeRun host s₀ min max skOnly ops t := by
  obtain ⟨t, ht⟩ := applyEvent_answers hrun.latch e
  have hhm : skOnly → t.hm = s.hm := by
    intro hskOnly
    obtain rfl := he.2 hskOnly
    exact (completion_otherUnit ht).2 rfl
  exact ⟨t, ht, latchMatchesBusy_applyEvent hrun.latch ht, hrun.progress.afterOther hidle hinit hle he.1 ht,
    fun hskOnly => (hhm hskOnly).trans (hrun.hmKept hskOnly)⟩

/-- The host's part of `run_programEvents`. -/
theorem RangeRun.afterHost {op : HostOp} {rest : List HostOp} {s : State} (hidle : s₀.sk.status.busy = false)
    (hrun : RangeRun host s₀ min max skOnly (op :: rest) s) :
    ∃ t, applyEvent op.event s = .next t ∧ RangeRun host s₀ min max skOnly (opsAfter op rest s) t := by
  obtain ⟨t, ht⟩ := applyEvent_answers hrun.latch op.event
  obtain ⟨hprogress, hhm⟩ := hrun.progress.afterHost hidle ht
  exact ⟨t, ht, latchMatchesBusy_applyEvent hrun.latch ht, hprogress,
    fun hskOnly => hhm.trans (hrun.hmKept hskOnly)⟩

end

/-- A finished ranged sample, in whatever order the turns came. -/
theorem run_rangeProgram {host : Nat} {turns : List Turn} {s : State} {min max : Word} {es : List Event}
    (hle : sint min ≤ sint max) (hleaves : ∀ e, Turn.other e ∈ turns → LeavesSkTo host e)
    (hlatch : LatchMatchesBusy s) (hidle : s.sk.status.busy = false) (hinit : s.sk.status.init = true)
    (hprogram : programEvents turns (rangeOps host min max) s = (es, [])) (hevents : s.events = es) :
    ∃ t : State, Host.Core.run core es.length s = .next t ∧ t.events = [] ∧ t.sk = ranged s.sk min max ∧
      (ownReadings host t).getLast? = some (rangeReading host s.sk min max) ∧
      (OnlySkCompletions turns → t.hm = s.hm) := by
  have hstart : RangeRun host s min max (OnlySkCompletions turns) (rangeOps host min max) s :=
    ⟨hlatch, .start rfl, fun _ => rfl⟩
  have hallowed : ∀ e, Turn.other e ∈ turns → Allowed host (OnlySkCompletions turns) e :=
    fun e he => ⟨hleaves e he, fun hskOnly => hskOnly e he⟩
  obtain ⟨t, hrun, hend⟩ := run_programEvents _ _
    (fun _ _ _ he hr => hr.afterOther hidle hinit hle he) (fun _ _ _ hr => hr.afterHost hidle)
    turns (rangeOps host min max) s hallowed hstart
  rw [hprogram] at hrun hend
  subst hevents
  rw [withEvents_self] at hrun
  cases hend.progress with
  | finished hsk hlast => exact ⟨_, hrun, rfl, hsk, hlast, hend.hmKept⟩

/-! ### A program that polls any number of times -/

theorem programEvents_host_left {op : HostOp} {s t : State} (turns : List Turn) (rest : List HostOp)
    (h : applyEvent op.event s = .next t) :
    (programEvents (.host :: turns) (op :: rest) s).2 = (programEvents turns (opsAfter op rest s) t).2 := by
  simp only [programEvents, h]

theorem programEvents_write_left (host : Nat) (r : Reg) (v : Word) (turns : List Turn) (rest : List HostOp)
    (s : State) :
    (programEvents (.host :: turns) (.once (.write host (regOffset r) .b8 v) :: rest) s).2 =
      (programEvents turns rest (writeReg s v r)).2 :=
  programEvents_host_left turns rest (applyEvent_write_reg s r v)

theorem programEvents_other_left {e : Event} {s t : State} (turns : List Turn) (ops : List HostOp)
    (h : applyEvent e s = .next t) : (programEvents (.other e :: turns) ops s).2 = (programEvents turns ops t).2 := by
  simp only [programEvents, h]

section
variable {host : Nat} {k : Sk} {s : State}

/-- The poll of a BUSY unit changes nothing of the program. -/
theorem programEvents_polls_left (polls : Nat) (turns : List Turn) (hsk : s.sk = k) (hbusy : k.status.busy = true) :
    ∃ t : State, t.sk = k ∧ (programEvents (List.replicate polls .host ++ turns) (resultOps host) s).2 =
      (programEvents turns (resultOps host) t).2 := by
  induction polls generalizing s with
  | zero => exact ⟨s, hsk, rfl⟩
  | succ polls ih =>
    obtain ⟨t, ht, hleft⟩ := ih (s := hostRead host (regOffset .skStatus) .b8 s) hsk
    refine ⟨t, ht, ?_⟩
    rw [List.replicate_succ, List.cons_append, resultOps, programEvents_host_left _ _ rfl, opsAfter_poll,
      if_pos (by rw [unitBusy, hsk, hbusy])]
    exact hleft

/-- On an idle unit the host polls once and reads the result. -/
theorem programEvents_result_left (hidle : s.sk.status.busy = false) :
    (programEvents [.host, .host] (resultOps host) s).2 = [] := by
  rw [resultOps, programEvents_host_left _ _ rfl, opsAfter_poll,
    if_neg (by rw [unitBusy, hidle]; exact Bool.false_ne_true)]
  rfl

/-- A ranged sample is finished after any number of polls before the completion. -/
theorem programEvents_range_left {min max : Word} (polls : Nat) (hle : sint min ≤ sint max)
    (hidle : s.sk.status.busy = false) (hinit : s.sk.status.init = true) :
    (programEvents (List.replicate (3 + polls) .host ++ [.other (.complete .sk), .host, .host])
      (rangeOps host min max) s).2 = [] := by
  have haccepted : acceptSk (bounded s.sk min max) (encode .skRange) =
      acceptedSk (bounded s.sk min max) (encode .skRange) := acceptSk_idle (bounded s.sk min max) _ hidle
  obtain ⟨t, ht, hleft⟩ := programEvents_polls_left (host := host) polls [.other (.complete .sk), .host, .host]
    (s := writeReg (writeReg (writeReg s min .skMin) max .skMax) (encode .skRange) .skCmd) haccepted rfl
  have hcompletion : applyEvent (.complete .sk) t = .next (t.withSk (ranged s.sk min max)) :=
    completion_skRange ht hinit hle
  have hwrites : List.replicate (3 + polls) Turn.host = .host :: .host :: .host :: List.replicate polls .host := by
    rw [Nat.add_comm]; rfl
  rw [hwrites, rangeOps]
  simp only [List.cons_append, programEvents_write_left]
  refine hleft.trans ?_
  rw [programEvents_other_left _ _ hcompletion]
  exact programEvents_result_left rfl

end

/-! ### DICE (43_sampling.md R103) -/

/-- A ranged sample from 1 to 6. -/
theorem rangeSample_dice (k : Sk) :
    rangeSample (bounded k 1 6) = BitVec.ofNat 64 (1 + (brx64 (subkeyAt k k.cursor)).toNat % 6) := by
  have hexact : rangeResult (skSnapshot (bounded k 1 6) (encode .skRange)) (rawValue k) =
      ((1 + (rawValue k).toNat % 6 : Nat) : Int) := rfl
  exact (congrArg bits64 hexact).trans (BitVec.ofInt_natCast _ _)

/-- Settles O45: DICE is the ranged sample from 1 to 6. -/
theorem diceProgramReadsOneToSix : Obligations.DiceProgramReadsOneToSix := by
  unfold Obligations.DiceProgramReadsOneToSix
  have hle : sint 1 ≤ sint 6 := by decide
  constructor
  · intro host turns s ops es hops hleaves hlatch hidle hinit hprogram hevents
    obtain rfl : rangeOps host 1 6 = ops := Option.some.inj ((programOps_expandRange host 1 6).symm.trans hops)
    obtain ⟨t, hrun, hdone, hsk, hlast, hhm⟩ := run_rangeProgram hle hleaves hlatch hidle hinit hprogram hevents
    refine ⟨t, hrun, hdone, ?_, ?_, hhm⟩
    · rw [← rangeSample_dice]
      exact hlast
    · rw [hsk]
      exact cursor_succ_toNat s.sk.cursor
  · intro host polls s ops hops _ hidle hinit
    obtain rfl : rangeOps host 1 6 = ops := Option.some.inj ((programOps_expandRange host 1 6).symm.trans hops)
    exact programEvents_range_left polls hle hidle hinit

end Sys2Proof.HostPrograms

/-! The statements about the pipeline diagnostics (44_pipeline_diag.md): the exact next state of PX.ROTL and PX.BRX on a
latched command, and the bits they write. -/

namespace Sys2Proof.PipelineRules

open Sys2Proof.Machine Sys2Proof.Laws Sys2Proof.Safety Sys2Proof.Primitives Sys2Proof.Encoding

/-! ### The outcomes of PX.ROTL and PX.BRX (R105, R106, 60_exceptions.md R109) -/

/-- An OK completion that wrote PX_OUT changes SK alone and keeps INIT: both commands run on a unit that is constructed or
not. -/
theorem complete_withPxOut (s : State) (out : Word) :
    complete .sk .ok (s.withSk { s.sk with pxOut := out }) = { s with sk := { s.sk with
      pxOut := out, pend := none, status := finished s.sk.status s.sk.status.init 0 } } := rfl

section
variable {s : State} {p : SkLatch}

theorem exec_pxRotl_ok {shamt : BitVec 16} (hlatch : s.sk.pend = some p) (hle : shamt.toNat ≤ 32) :
    exec (.pxRotl shamt) s = .next (complete .sk .ok
      (s.withSk { s.sk with pxOut := (rotl32 (rotateOperand p) shamt.toNat).setWidth 64 })) :=
  (withSkLatch_some s p _ hlatch).trans (if_neg (not_lt.mpr hle))

theorem exec_pxRotl_invalidArgument {shamt : BitVec 16} (hlatch : s.sk.pend = some p) (hlt : 32 < shamt.toNat) :
    exec (.pxRotl shamt) s = .next (complete .sk .invalidArgument s) :=
  (withSkLatch_some s p _ hlatch).trans (if_pos hlt)

theorem exec_pxBrx (hlatch : s.sk.pend = some p) :
    exec .pxBrx s = .next (complete .sk .ok (s.withSk { s.sk with pxOut := brx64 p.pxIn })) :=
  withSkLatch_some s p _ hlatch

end

/-! ### The bits they write (40_primitives.md R74, R76) -/

/-- Bit `i` of a rotation comes from bit `(i - s) mod 32`, which the rotation moves to `i`. -/
theorem rotl32_getLsbD_source (x : Half) {s i : Nat} (hs : s ≤ 32) (hi : i < 32) :
    (rotl32 x s).getLsbD i = x.getLsbD ((i + 32 - s) % 32) := by
  have hmoved : ((i + 32 - s) % 32 + s) % 32 = i := by omega
  rw [← rotl32_getLsbD_add x hs (Nat.mod_lt _ (by decide)), hmoved]

/-- The operand of a rotation has the low bits of PX_IN. -/
theorem rotateOperand_getLsbD (p : SkLatch) {i : Nat} (hi : i < 32) :
    (rotateOperand p).getLsbD i = p.pxIn.getLsbD i := by
  simp [rotateOperand, hi]

theorem brx64_getLsbD (v : Word) {i : Nat} (hi : i < 64) :
    (brx64 v).getLsbD i = (v.getLsbD i ^^ v.getLsbD (63 - i)) := by
  rw [brx64, BitVec.getLsbD_xor, rev64_getLsbD v hi]

/-- Settles O27, by the two sides of the limit of SHAMT; the rotated half is extended with zeros. -/
theorem pxRotlRotatesTheLowHalf : Obligations.PxRotlRotatesTheLowHalf := by
  unfold Obligations.PxRotlRotatesTheLowHalf
  refine fun shamt s p hlatch => ⟨fun hle => ?_, fun hlt => ?_⟩
  · refine ⟨(rotl32 (rotateOperand p) shamt.toNat).setWidth 64, ?_, fun i hi => ?_, ?_⟩
    · rw [exec_pxRotl_ok hlatch hle, complete_withPxOut]
    · have hsource : (i + 32 - shamt.toNat) % 32 < 32 := Nat.mod_lt _ (by decide)
      rw [BitVec.getLsbD_setWidth, decide_eq_true (by omega), Bool.true_and, rotl32_getLsbD_source _ hle hi,
        rotateOperand_getLsbD p hsource]
    · rw [BitVec.toNat_setWidth_of_le (by decide)]
      exact BitVec.isLt _
  · rw [exec_pxRotl_invalidArgument hlatch hlt, complete_eq_onlyCompleted]
    rfl

/-- Settles O28: PX.BRX completes on `brx64` of the latched operand, which is known bit by bit. -/
theorem pxBrxPermutesTheOperand : Obligations.PxBrxPermutesTheOperand := by
  unfold Obligations.PxBrxPermutesTheOperand
  intro s p hlatch
  refine ⟨brx64 p.pxIn, ?_, fun i hi => brx64_getLsbD p.pxIn hi⟩
  rw [exec_pxBrx hlatch, complete_withPxOut]

end Sys2Proof.PipelineRules

/-! The statements about errors, draws and the order of completions (60_exceptions.md): what an error completion writes,
which commands draw a time, that completions of the two units commute, and that no step stops. -/

namespace Sys2Proof.ExceptionRules

open Sys2Proof.Machine Sys2Proof.Laws Sys2Proof.Safety Sys2Proof.Moves Sys2Proof.StateRules
open Sys2Proof.Encoding Sys2Proof.HashMixRules Sys2Proof.SubkeyRules Sys2Proof.SamplingRules
open Sys2Proof.PipelineRules Sys2Proof.HostPrograms

/-! ### No step stops (R110, 10_state.md R36) -/

/-- The engine's own turn is idle or a completion, and the choice of the unit leaves both latches as they are. -/
theorem engineTurn_answers {s : State} (hlatch : LatchMatchesBusy s) : ∃ t, engineTurn s = .next t := by
  unfold engineTurn
  split
  · split
    · exact completion_answers (s := { s with turnCount := s.turnCount + 1 }) hlatch _
    · exact completion_answers hlatch .hm
  · split
    · exact completion_answers hlatch .sk
    · exact ⟨s, rfl⟩

/-- Settles O36: a step is the engine's own turn or the first listed event, and both answer. -/
theorem consistentMachineNeverStops : Obligations.ConsistentMachineNeverStops := by
  unfold Obligations.ConsistentMachineNeverStops
  intro s hlatch
  cases hevents : s.events with
  | nil => simpa only [step, hevents] using engineTurn_answers hlatch
  | cons e rest =>
    rw [step_listed hevents]
    exact applyEvent_answers (s := { s with events := rest }) hlatch e

/-! ### An error writes the completion fields alone (R108) -/

theorem unitStatus_complete (u : UnitId) (c : ErrCode) (s : State) :
    unitStatus u (complete u c s) = completeStatus (unitStatus u s) c := by
  cases u <;> rfl

/-- A command that posts a nonzero code is `complete` and nothing else: both kinds of success post 0. -/
theorem exec_error {i : Instr} {s t : State} (h : exec i s = .next t) (hcode : (unitStatus i.unit t).errcode ≠ 0) :
    ∃ c, t = complete i.unit c s := by
  rcases exec_next h with ⟨c, -, rfl⟩ | ⟨hunit, s', h', -, -, -, -, rfl⟩ | ⟨hunit, s', k', -, -, -, -, rfl⟩
  · exact ⟨c, rfl⟩
  all_goals
    rw [hunit, unitStatus_complete] at hcode
    exact absurd rfl hcode

/-- A completion that posts a nonzero code is `complete` and nothing else. -/
theorem completion_error {u : UnitId} {s t : State} (hbusy : unitBusy u s = true) (h : completion u s = .next t)
    (hcode : (unitStatus u t).errcode ≠ 0) : ∃ c, t = complete u c s := by
  rcases completion_next h with ⟨hidle, -⟩ | ⟨w, i, -, -, hdecode, hexec⟩ | ⟨w, e, -, -, -, rfl⟩
  · exact absurd (hbusy.symm.trans hidle) (by decide)
  · obtain rfl := unit_of_decode hdecode
    exact exec_error hexec hcode
  · exact ⟨_, rfl⟩

/-- Settles O29: the completion is `complete` of some code, which is the one that STATUS then holds. -/
theorem errorsChangeNothingButStatus : Obligations.ErrorsChangeNothingButStatus := by
  unfold Obligations.ErrorsChangeNothingButStatus
  intro u s t hbusy h hcode
  obtain ⟨c, rfl⟩ := completion_error hbusy h hcode
  refine ⟨?_, decide_eq_true hcode⟩
  rw [unitStatus_complete, completeStatus_errcode]
  exact complete_eq_onlyCompleted u c s

/-! ### Which completions draw a time (R116) -/

/-- The commands that draw. -/
def DrawsTime (i : Instr) : Prop := i = .hmInitt ∨ i = .skInitt ∨ ∃ len, i = .hmGen len

/-- An OK completion of a constructed unit whose OVERRUN the command has kept. -/
theorem completeStatus_ok_of_overrun {st st' : Status} (hinit : st'.init = true) (hoverrun : st'.overrun = st.overrun) :
    completeStatus st' .ok = finished st true 0 := by
  rw [completeStatus_ok hinit, finished, hoverrun]
  rfl

/-- A command writes the units alone, or it is a success of a drawing command, which writes them after one draw. -/
theorem exec_draws {i : Instr} {s t : State} (h : exec i s = .next t) :
    t = (s.withHm t.hm).withSk t.sk ∨
    (t = ((afterDraw s).withHm t.hm).withSk t.sk ∧ DrawsTime i ∧
      unitStatus i.unit t = finished (unitStatus i.unit s) true 0) := by
  rcases exec_next h with ⟨c, -, rfl⟩ | ⟨hunit, s', h', hdraw, hinit, hoverrun, -, rfl⟩ |
    ⟨hunit, s', k', hdraw, -, hoverrun, -, rfl⟩
  · exact .inl (by cases i.unit <;> rfl)
  · rcases hdraw with rfl | ⟨rfl, hi⟩
    · exact .inl rfl
    · refine .inr ⟨rfl, hi.imp_right .inr, ?_⟩
      rw [hunit]
      exact completeStatus_ok_of_overrun hinit hoverrun
  · rcases hdraw with rfl | ⟨rfl, hi, hinit⟩
    · exact .inl rfl
    · refine .inr ⟨rfl, .inr (.inl hi), ?_⟩
      rw [hunit]
      exact completeStatus_ok_of_overrun hinit hoverrun

/-- A BUSY unit `u` of `s` that held a drawing command and has completed it with OK in `t`. -/
def CompletedADraw (u : UnitId) (s t : State) : Prop :=
  ∃ w i, unitBusy u s = true ∧ latchedWord u s = some w ∧ decode u w = .ok i ∧ DrawsTime i ∧
    unitStatus u t = finished (unitStatus u s) true 0

/-- A completion writes the units alone, or it is that of a drawing command and writes them after one draw. -/
theorem completion_draws {u : UnitId} {s t : State} (h : completion u s = .next t) :
    t = (s.withHm t.hm).withSk t.sk ∨ (t = ((afterDraw s).withHm t.hm).withSk t.sk ∧ CompletedADraw u s t) := by
  rcases completion_next h with ⟨-, rfl⟩ | ⟨w, i, hbusy, hword, hdecode, hexec⟩ | ⟨w, e, -, -, -, rfl⟩
  · exact .inl rfl
  · refine (exec_draws hexec).imp_right fun ⟨ht, hdraws, hstatus⟩ => ⟨ht, w, i, hbusy, hword, hdecode, hdraws, ?_⟩
    rwa [unit_of_decode hdecode] at hstatus
  · exact .inl (by cases u <;> rfl)

/-- From `s` to `t` no draw was taken. -/
def NoDraw (s t : State) : Prop := t.drawCount = s.drawCount ∧ t.timeFeed = s.timeFeed

/-- From `s` to `t` one draw was taken. -/
def OneDraw (s t : State) : Prop := t.drawCount = s.drawCount + 1 ∧ t.timeFeed = s.timeFeed.tail

/-- A completion takes no draw, or one that its unit's command accounts for. The events to come and the count of free
choices have no part in it. -/
theorem completion_draw_cases {u : UnitId} {s t : State} {es : List Event} {n : Nat}
    (h : completion u { s with events := es, turnCount := n } = .next t) :
    NoDraw s t ∨ ∃ u, CompletedADraw u s t ∧ OneDraw s t := by
  rcases completion_draws h with ht | ⟨ht, hdrew⟩
  · exact .inl ⟨(congrArg State.drawCount ht :), (congrArg State.timeFeed ht :)⟩
  · exact .inr ⟨u, hdrew, (congrArg State.drawCount ht :), (congrArg State.timeFeed ht :)⟩

/-- A host's write draws nothing. -/
theorem noDraw_memWrite (s : State) (o : Offset) (w : Width) (v : Word) : NoDraw s (memWrite s o w v) := by
  rcases memWrite_cases s o w v with hkept | ⟨r, -, -, hwrite⟩
  · rw [hkept]
    exact ⟨rfl, rfl⟩
  · rw [hwrite]
    cases r <;> exact ⟨rfl, rfl⟩

/-- A step takes no draw, or it completes a command that draws. -/
theorem step_draw_cases {s t : State} (h : step s = .next t) :
    NoDraw s t ∨ ∃ u, CompletedADraw u s t ∧ OneDraw s t := by
  rcases step_next h with ⟨-, hturn⟩ | ⟨host, o, w, rest, -, rfl⟩ | ⟨host, o, w, v, rest, -, rfl⟩ |
    ⟨u, rest, -, hcompl⟩ | ⟨rest, -, rfl⟩
  · rcases engineTurn_next hturn with ⟨-, -, rfl⟩ | ⟨u, n, -, hcompl⟩
    · exact .inl ⟨rfl, rfl⟩
    · exact completion_draw_cases hcompl
  · exact .inl ⟨rfl, rfl⟩
  · exact .inl (noDraw_memWrite { s with events := rest } o w v)
  · exact completion_draw_cases hcompl
  · exact .inl ⟨rfl, rfl⟩

/-- Settles O33, by the causes of a draw in a step. -/
theorem onlyThreeCommandsDraw : Obligations.OnlyThreeCommandsDraw := by
  unfold Obligations.OnlyThreeCommandsDraw
  intro s t h
  refine (step_draw_cases h).imp_right ?_
  rintro ⟨u, ⟨w, i, hbusy, hword, hdecode, hdraws, hstatus⟩, hone⟩
  exact ⟨u, w, i, hbusy, hword, hdecode, hdraws, hstatus, hone⟩

/-! ### Completions of the two units commute (R113, R120)

A completion writes its own unit, after a draw or not. It does the same from a state in which the other unit is another
one, and, when it draws nothing, from a state after a draw. -/

/-- A completion does from `f s` what it does from `s`, when its unit's latch and BUSY are the same there and its command
and the error completion do so. -/
theorem completion_map {u : UnitId} {s t : State} (f : State → State) (h : completion u s = .next t)
    (hbusy : unitBusy u (f s) = unitBusy u s) (hlatched : latchedWord u (f s) = latchedWord u s)
    (hexec : ∀ i, i.unit = u → exec i s = .next t → exec i (f s) = .next (f t))
    (hcomplete : ∀ c, complete u c (f s) = f (complete u c s)) : completion u (f s) = .next (f t) := by
  rcases completion_next h with ⟨hidle, rfl⟩ | ⟨w, i, hb, hw, hd, hx⟩ | ⟨w, e, hb, hw, hd, rfl⟩
  · simp [completion, hbusy, hidle]
  · simpa [completion, completeWord, hbusy, hlatched, hb, hw, hd] using hexec i (unit_of_decode hd) hx
  · simp [completion, completeWord, raise, hbusy, hlatched, hb, hw, hd, hcomplete]

/-- HM's completion does not read SK. -/
theorem completion_withSk {s t : State} (h : completion .hm s = .next t) (k : Sk) :
    completion .hm (s.withSk k) = .next (t.withSk k) :=
  completion_map (·.withSk k) h rfl rfl (fun i hunit => Scope.commandsIgnoreTheOtherUnit.1 i s t k hunit) fun _ => rfl

/-- SK's completion does not read HM. -/
theorem completion_withHm {s t : State} (h : completion .sk s = .next t) (h' : Hm) :
    completion .sk (s.withHm h') = .next (t.withHm h') :=
  completion_map (·.withHm h') h rfl rfl (fun i hunit => Scope.commandsIgnoreTheOtherUnit.2 i s t h' hunit) fun _ => rfl

/-- A command that draws nothing reads nothing of the time source: a success of HM.INITT, SK.INITT and HM.GEN is out, and
what is left reads its unit alone. -/
theorem exec_afterDraw {i : Instr} {s t : State} (h : exec i s = .next t) (hkept : t.drawCount = s.drawCount) :
    exec i (afterDraw s) = .next (afterDraw t) := by
  cases i with
  | hmInit signed =>
    obtain ⟨p, hp, rfl⟩ := execHmInit_next h
    exact exec_hmInit (s := afterDraw s) signed hp
  | hmInitt =>
    obtain ⟨p, -, rfl⟩ := execHmInitt_next h
    exact absurd hkept (Nat.succ_ne_self _)
  | hmGen len =>
    obtain ⟨p, hp, ⟨hinit, rfl⟩ | ⟨hinit, hlen, rfl⟩ | ⟨hinit, hlen, hcount, rfl⟩ | ⟨-, -, -, rfl⟩⟩ :=
      execHmGen_next h
    · exact exec_hmGen_notInitialised (s := afterDraw s) hp hinit
    · exact exec_hmGen_invalidArgument (s := afterDraw s) hp hinit hlen
    · exact exec_hmGen_countExhausted (s := afterDraw s) hp hinit hlen hcount
    · exact absurd hkept (Nat.succ_ne_self _)
  | skInit =>
    obtain ⟨p, hp, rfl⟩ := execSkInit_next h
    exact exec_skInit (s := afterDraw s) hp
  | skInitt =>
    obtain ⟨p, -, rfl⟩ := execSkInitt_next h
    exact absurd hkept (Nat.succ_ne_self _)
  | skRaw =>
    obtain ⟨p, hp, ⟨hinit, rfl⟩ | ⟨hinit, rfl⟩⟩ := execSkRaw_next h
    · exact exec_skRaw_notInitialised (s := afterDraw s) hp hinit
    · exact exec_skRaw_ok (s := afterDraw s) hp hinit
  | skRange =>
    obtain ⟨p, hp, ⟨hinit, rfl⟩ | ⟨hinit, hlt, rfl⟩ | ⟨hinit, hle, rfl⟩⟩ := execSkRange_next h
    · exact exec_skRange_notInitialised (s := afterDraw s) hp hinit
    · exact exec_skRange_invalidArgument (s := afterDraw s) hp hinit hlt
    · exact exec_skRange_ok (s := afterDraw s) hp hinit hle
  | pxRotl shamt =>
    obtain ⟨p, hp, ⟨hlt, rfl⟩ | ⟨hle, rfl⟩⟩ := execPxRotl_next h
    · exact exec_pxRotl_invalidArgument (s := afterDraw s) hp hlt
    · exact exec_pxRotl_ok (s := afterDraw s) hp hle
  | pxBrx =>
    obtain ⟨p, hp, rfl⟩ := execPxBrx_next h
    exact exec_pxBrx (s := afterDraw s) hp

/-- A completion that draws nothing does the same after a draw. -/
theorem completion_afterDraw {u : UnitId} {s t : State} (h : completion u s = .next t)
    (hkept : t.drawCount = s.drawCount) : completion u (afterDraw s) = .next (afterDraw t) :=
  completion_map afterDraw h rfl rfl (fun _ _ hexec => exec_afterDraw hexec hkept) fun _ => by cases u <;> rfl

/-- HM's completion writes HM, after a draw or not. -/
theorem completion_hm_eq {s t : State} (h : completion .hm s = .next t) :
    ∃ h', t = s.withHm h' ∨ t = (afterDraw s).withHm h' := by
  have hsk : t.sk = s.sk := (completion_otherUnit h).1 rfl
  refine ⟨t.hm, (completion_draws h).imp (fun ht => ?_) fun ⟨ht, _⟩ => ?_⟩ <;> rwa [hsk] at ht

/-- SK's completion writes SK, after a draw or not. -/
theorem completion_sk_eq {s t : State} (h : completion .sk s = .next t) :
    ∃ k', t = s.withSk k' ∨ t = (afterDraw s).withSk k' := by
  have hhm : t.hm = s.hm := (completion_otherUnit h).2 rfl
  refine ⟨t.sk, (completion_draws h).imp (fun ht => ?_) fun ⟨ht, _⟩ => ?_⟩ <;> rwa [hhm] at ht

/-- Settles O32: either order writes both units, after the one draw there is, if any. -/
theorem completionsOfTheUnitsCommute : Obligations.CompletionsOfTheUnitsCommute := by
  unfold Obligations.CompletionsOfTheUnitsCommute
  intro s a b ha hb hkept
  obtain ⟨h', rfl | rfl⟩ := completion_hm_eq ha <;> obtain ⟨k', rfl | rfl⟩ := completion_sk_eq hb
  case inl.inl => exact ⟨_, completion_withHm hb h', completion_withSk ha k'⟩
  case inl.inr => exact ⟨_, completion_withHm hb h', completion_withSk (completion_afterDraw ha rfl) k'⟩
  case inr.inl => exact ⟨_, completion_withHm (completion_afterDraw hb rfl) h', completion_withSk ha k'⟩
  case inr.inr => exact absurd hkept (by simp)

end Sys2Proof.ExceptionRules

/-! The statements about reset, the result hazard and the end of a run (70_reset_and_hazards.md). -/

namespace Sys2Proof.ResetRules

open Sys2Proof.Machine Sys2Proof.Laws Sys2Proof.Safety Sys2Proof.Moves Sys2Proof.StateRules
open Sys2Proof.SamplingRules Sys2Proof.HostPrograms Sys2Proof.ExceptionRules

/-! ### Reset (R123) -/

/-- Settles O18: the listed reset is the next transition, and it writes both units, latches with them. -/
theorem resetDiscardsEverything : Obligations.ResetDiscardsEverything := by
  unfold Obligations.ResetDiscardsEverything
  intro s rest hevents
  rw [step_listed hevents, applyEvent, resetEngine]
  rfl

/-! ### Results change by a success alone (R128) -/

section
variable {es : List Event}

/-- Host writes and errors write no result of HM; a construction and HM.GEN with OK are completions of a BUSY unit. -/
theorem hmResults_of_move {h h' : Hm} (m : HmMove es h h') :
    hmResults h' = hmResults h ∨ (∃ rest, es = .reset :: rest) ∨
      (h.status.busy = true ∧ h'.status = finished h.status true 0) := by
  cases m with
  | kept | dropped | accepted | written | operand | failed => exact .inl rfl
  | reset he => exact .inr (.inl ⟨_, he⟩)
  | constructed seed signed hb => exact .inr (.inr ⟨hb, rfl⟩)
  | generated t hb hw hd hinit => exact .inr (.inr ⟨hb, completeStatus_ok hinit⟩)

/-- The same in SK. A PX command also succeeds before the construction, so INIT is what it is after the step. -/
theorem skResults_of_move {k k' : Sk} (m : SkMove es k k') :
    skResults k' = skResults k ∨ (∃ rest, es = .reset :: rest) ∨
      (k.status.busy = true ∧ k'.status = finished k.status k'.status.init 0) := by
  cases m with
  | kept | dropped | accepted | written | operand | failed => exact .inl rfl
  | reset he => exact .inr (.inl ⟨_, he⟩)
  | constructed mk hb => exact .inr (.inr ⟨hb, rfl⟩)
  | consumed result hb => exact .inr (.inr ⟨hb, rfl⟩)
  | piped out hb => exact .inr (.inr ⟨hb, rfl⟩)

end

/-- Settles O39: a step is a move of each unit, and only reset and the successes move a result. -/
theorem resultsChangeOnlyAtSuccessfulCompletion : Obligations.ResultsChangeOnlyAtSuccessfulCompletion := by
  unfold Obligations.ResultsChangeOnlyAtSuccessfulCompletion
  exact fun _ _ hstep => ⟨hmResults_of_move (step_hmMove hstep), skResults_of_move (step_skMove hstep)⟩

/-! ### The engine alone comes to rest (R132, R133)

With no event listed, each turn of an engine that is not idle completes one BUSY unit and leaves the other as it is. So the
number of BUSY units bounds the turns to quiescence, and there are two units. -/

/-- After a completion its unit is idle. -/
theorem completion_idle {u : UnitId} {s t : State} (h : completion u s = .next t) : unitBusy u t = false := by
  rcases completion_next h with ⟨hidle, rfl⟩ | ⟨w, i, -, -, hdecode, hexec⟩ | ⟨w, e, -, -, -, rfl⟩
  · exact hidle
  · obtain rfl := unit_of_decode hdecode
    rcases exec_next hexec with ⟨c, -, rfl⟩ | ⟨hunit, s', h', -, -, -, -, rfl⟩ | ⟨hunit, s', k', -, -, -, -, rfl⟩
    · cases i.unit <;> rfl
    all_goals rw [hunit]; rfl
  · cases u <;> rfl

/-- A completion lists and takes no event. -/
theorem completion_events {u : UnitId} {s t : State} (h : completion u s = .next t) : t.events = s.events := by
  rcases completion_draws h with ht | ⟨ht, -⟩ <;> exact (congrArg State.events ht :)

/-- A step keeps the latches matching BUSY. -/
theorem latchMatchesBusy_step {s t : State} (hlatch : LatchMatchesBusy s) (h : step s = .next t) : LatchMatchesBusy t :=
  ⟨latch_of_hmMove (step_hmMove h) hlatch.1, latch_of_skMove (step_skMove h) hlatch.2⟩

/-- The number of BUSY units, each of which has its completion step enabled (10_state.md R39). -/
def busyUnits (s : State) : Nat := s.hm.status.busy.toNat + s.sk.status.busy.toNat

theorem busyUnits_le_two (s : State) : busyUnits s ≤ 2 :=
  Nat.add_le_add (Bool.toNat_le _) (Bool.toNat_le _)

theorem busyUnits_eq_zero {s : State} : busyUnits s = 0 ↔ s.hm.status.busy = false ∧ s.sk.status.busy = false := by
  simp [busyUnits]

/-- The completion of a BUSY unit leaves one BUSY unit fewer. -/
theorem busyUnits_completion {u : UnitId} {s t : State} (hbusy : unitBusy u s = true) (h : completion u s = .next t) :
    busyUnits t + 1 = busyUnits s := by
  have hidle := completion_idle h
  have hother := completion_otherUnit h
  cases u with
  | hm =>
    simp only [unitBusy] at hbusy hidle
    simp [busyUnits, hbusy, hidle, hother.1 rfl, Nat.add_comm]
  | sk =>
    simp only [unitBusy] at hbusy hidle
    simp [busyUnits, hbusy, hidle, hother.2 rfl]

/-- A turn of the engine lists no event and leaves one BUSY unit fewer, if there is one. -/
theorem engineTurn_progress {s t : State} (h : engineTurn s = .next t) :
    t.events = s.events ∧ busyUnits t = busyUnits s - 1 := by
  rcases engineTurn_next h with ⟨hhm, hsk, rfl⟩ | ⟨u, n, hbusy, hcompl⟩
  · exact ⟨rfl, by simp [busyUnits_eq_zero.mpr ⟨hhm, hsk⟩]⟩
  · have hbusy' : unitBusy u { s with turnCount := n } = true := by cases u <;> exact hbusy
    have hkept := completion_events hcompl
    have hfewer := busyUnits_completion hbusy' hcompl
    exact ⟨hkept, Nat.eq_sub_of_add_eq hfewer⟩

/-- As many turns as there are BUSY units, or more, end in a quiescent state. -/
theorem run_quiescent (n : Nat) {s : State} (hlatch : LatchMatchesBusy s) (hevents : s.events = [])
    (hn : busyUnits s ≤ n) :
    ∃ t : State, Host.Core.run core n s = .next t ∧ Quiescent t ∧ t.events = [] := by
  induction n generalizing s with
  | zero =>
    obtain ⟨hhm, hsk⟩ := busyUnits_eq_zero.mp (Nat.le_zero.mp hn)
    exact ⟨s, rfl, ⟨hhm, hsk, by rw [HostsFinished, hevents]; rfl⟩, hevents⟩
  | succ n ih =>
    obtain ⟨s', hstep⟩ := consistentMachineNeverStops s hlatch
    have hturn : engineTurn s = .next s' := by simpa only [step, hevents] using hstep
    obtain ⟨hkept, hfewer⟩ := engineTurn_progress hturn
    rw [run_succ n hstep]
    exact ih (latchMatchesBusy_step hlatch hstep) (hkept.trans hevents) (by omega)

/-- Settles O46: there are at most two BUSY units. -/
theorem engineIsQuiescentInTwoTurns : Obligations.EngineIsQuiescentInTwoTurns := by
  unfold Obligations.EngineIsQuiescentInTwoTurns
  exact fun s hlatch hevents => run_quiescent 2 hlatch hevents (busyUnits_le_two s)

end Sys2Proof.ResetRules
